-- ==== Sys2Proof/Word.lean ====
section
/-! DEFINITION. The word types of the XXH64 engine (spec/00_scope.md R12): unsigned values of fixed width, bit 0 least significant.
`+`, `-` and `*` of `BitVec 64` are the spec's modulo-2^64 operations (R13). -/

namespace Sys2Proof

/-- `u64` of R12. -/
abbrev Word := BitVec 64

/-- `u32` of R12: a register of the register map, a command word, a tail word. -/
abbrev HalfWord := BitVec 32

/-- `u8` of R12. -/
abbrev Byte := BitVec 8

end Sys2Proof
end

