-- ==== Sys2Proof/Config.lean ====
section
/-! DEFINITION. What an implementation fixes and what the spec leaves open: the range and default of the one parameter
WINDOW_BYTES (R10), and the free values (draws) of the spec's OPEN points. A free value has no body: nothing proves what it is. -/

namespace Sys2Proof.Config

/-- Smallest WINDOW_BYTES (R10). -/
def windowMin : Nat := 32

/-- Largest WINDOW_BYTES: the 24-bit COUNT field's largest value (R10). -/
def windowMax : Nat := 16777215

/-- WINDOW_BYTES of the reference configuration (R10; 92_eei_decisions.md D4). -/
def windowDefault : Nat := 16384

/-- Free value: what the n-th draw of an unwritten window byte gives (R76; DESIGN CHOICE, log entry 5). -/
opaque freeByte : Nat → BitVec 8

/-- Free value: what the n-th draw of a register read while BUSY = 1 gives (R49; DESIGN CHOICE, log entry 6). -/
opaque freeReg : Nat → BitVec 32

/-- Free value: after the n-th draw, how many host actions may come before an accepted command completes (R161, D14; DESIGN CHOICE, log entry 4).
A natural number, so every pending command completes: the spec's weak fairness. -/
opaque completionDelay : Nat → Nat

end Sys2Proof.Config
end

