-- ==== Sys2Proof/Syntax.lean ====
section
/-! DEFINITION. The commands of the block, one constructor per row of spec/opcode_table.json (R94). -/

namespace Sys2Proof

/-- A command `Cmd(op, count)` (R34, R102): the operation, and COUNT for the one operation that has an operand. -/
inductive Instr where
  /-- NOP, OP = 0x0 (R162). -/
  | nop
  /-- INIT, OP = 0x1, the seed implicit in WINDOW[0..7] (R163). -/
  | init
  /-- RESET, OP = 0x2 (R164). -/
  | reset
  /-- CONSUME, OP = 0x3, COUNT = w[23:0] (R93, R165). -/
  | consume (count : BitVec 24)
  /-- FINALIZE, OP = 0x4 (R166). -/
  | finalize
  /-- CLRERR, OP = 0x5 (R167). -/
  | clrerr
  deriving DecidableEq, Repr

end Sys2Proof
end

