-- ==== Sys2Proof/WellFormed.lean ====
section
/-! DEFINITION. Which commands are legal on a block with a window of `windowBytes` bytes: CONSUME's COUNT may not pass the window (R93, R96). -/

namespace Sys2Proof

/-- COUNT ≤ WINDOW_BYTES for CONSUME; the other commands have no operand (R93). -/
def Instr.wf (windowBytes : Nat) : Instr → Bool
  | .nop => true
  | .init => true
  | .reset => true
  | .consume count => decide (count.toNat ≤ windowBytes)
  | .finalize => true
  | .clrerr => true

end Sys2Proof
end

