-- ==== Sys2Proof/Decode.lean ====
section
/-! DEFINITION. The command word (R90 to R102): its fields, the decoder, total on all 2^32 words and rejecting by name, the encoder, and
the opcode map's match and mask rows (R94). -/

namespace Sys2Proof

/-- OP, bits 31:28 (R91). -/
def opField (w : HalfWord) : BitVec 4 := w.extractLsb' 28 4

/-- RSV, bits 27:24 (R92). -/
def rsvField (w : HalfWord) : BitVec 4 := w.extractLsb' 24 4

/-- COUNT, bits 23:0 (R93). -/
def countField (w : HalfWord) : BitVec 24 := w.extractLsb' 0 24

/-- The word `{OP, RSV, COUNT}` (R90). -/
def commandWord (op rsv : BitVec 4) (count : BitVec 24) : HalfWord := op ++ rsv ++ count

/-- The rejections of R102, each with the name of R261. -/
inductive Reject where
  /-- OP ∈ 6..15 (R95), code 1. -/
  | illegalOp
  /-- RSV ≠ 0, or COUNT ≠ 0 with OP ≠ 3 (R96), code 3. -/
  | reservedNonzero
  /-- CONSUME with COUNT > WINDOW_BYTES (R96), code 2. -/
  | countRange
  deriving DecidableEq, Repr

/-- The command that OP selects (R91, R94), none for the illegal values 6 to 15 (R95). -/
def instrOfOp (op : BitVec 4) (count : BitVec 24) : Option Instr :=
  match op.toNat with
  | 0 => some .nop
  | 1 => some .init
  | 2 => some .reset
  | 3 => some (.consume count)
  | 4 => some .finalize
  | 5 => some .clrerr
  | _ => none

/-- `decode(w)` of R102, its checks in the order of R264. -/
def decode (windowBytes : Nat) (w : HalfWord) : Except Reject Instr :=
  match instrOfOp (opField w) (countField w) with
  | none => .error .illegalOp
  | some i =>
    if rsvField w ≠ 0#4 then .error .reservedNonzero
    else if opField w ≠ 3#4 ∧ countField w ≠ 0#24 then .error .reservedNonzero
    else if i.wf windowBytes = false then .error .countRange
    else .ok i

/-- OP of a command (R94). -/
def opOf : Instr → BitVec 4
  | .nop => 0x0#4
  | .init => 0x1#4
  | .reset => 0x2#4
  | .consume _ => 0x3#4
  | .finalize => 0x4#4
  | .clrerr => 0x5#4

/-- COUNT of a command: CONSUME's operand, 0 for every other (R93). -/
def countOf : Instr → BitVec 24
  | .nop => 0#24
  | .init => 0#24
  | .reset => 0#24
  | .consume count => count
  | .finalize => 0#24
  | .clrerr => 0#24

/-- The command word of a command (R90, R99). -/
def encode (i : Instr) : HalfWord := commandWord (opOf i) 0#4 (countOf i)

/-- One row of the opcode map: a word w selects it when `(w & mask) = match` (R94). -/
structure OpcodeRow where
  mnemonic : String
  matchBits : HalfWord
  mask : HalfWord
  deriving DecidableEq, Repr

/-- w selects the row (R94). -/
def selects (row : OpcodeRow) (w : HalfWord) : Bool := decide (w &&& row.mask = row.matchBits)

/-- The opcode map, in the order of R94. -/
def opcodeMap : List OpcodeRow :=
  [⟨"NOP", 0x00000000#32, 0xFFFFFFFF#32⟩,
   ⟨"INIT", 0x10000000#32, 0xFFFFFFFF#32⟩,
   ⟨"RESET", 0x20000000#32, 0xFFFFFFFF#32⟩,
   ⟨"CONSUME", 0x30000000#32, 0xFF000000#32⟩,
   ⟨"FINALIZE", 0x40000000#32, 0xFFFFFFFF#32⟩,
   ⟨"CLRERR", 0x50000000#32, 0xFFFFFFFF#32⟩]

/-- The row of a command (R94). -/
def rowOf : Instr → OpcodeRow
  | .nop => ⟨"NOP", 0x00000000#32, 0xFFFFFFFF#32⟩
  | .init => ⟨"INIT", 0x10000000#32, 0xFFFFFFFF#32⟩
  | .reset => ⟨"RESET", 0x20000000#32, 0xFFFFFFFF#32⟩
  | .consume _ => ⟨"CONSUME", 0x30000000#32, 0xFF000000#32⟩
  | .finalize => ⟨"FINALIZE", 0x40000000#32, 0xFFFFFFFF#32⟩
  | .clrerr => ⟨"CLRERR", 0x50000000#32, 0xFFFFFFFF#32⟩

/-- The 32-bit command word of which the low `nbits` bits of w are given and the rest are 0. -/
def tableWord (nbits w : Nat) : HalfWord := BitVec.ofNat 32 (w % 2 ^ nbits)

/-- What the decoder of the reference configuration reads from a word numbered as the opcode table numbers it: every command is one 32-bit
word (R98). -/
def decodeTableWord (nbits w : Nat) : Option Instr :=
  match decode Config.windowDefault (tableWord nbits w) with
  | .ok i => some i
  | .error _ => none

end Sys2Proof
end

