-- ==== Sys2Proof/Machine/Port.lean ====
section
/-! DEFINITION. What passes the block's ports (R200) and what the host can do to it: error codes (R261), bus requests and responses, the
host's actions. -/

namespace Sys2Proof.Machine

/-- The error codes of R261 that ERR can hold; codes 7 to 15 are never produced. -/
inductive ErrCode where
  /-- 0 NONE: no error recorded. -/
  | noError
  /-- 1 ILLEGAL_OP: CMD word with OP ∈ 6..15. -/
  | illegalOp
  /-- 2 COUNT_RANGE: CONSUME word with COUNT > WINDOW_BYTES. -/
  | countRange
  /-- 3 RESERVED_NONZERO: CMD word with RSV ≠ 0, or COUNT ≠ 0 with OP ≠ 3. -/
  | reservedNonzero
  /-- 4 CMD_BUSY: CMD write while BUSY = 1. -/
  | cmdBusy
  /-- 5 BUS: bad address, width or alignment. -/
  | bus
  /-- 6 WIN_BUSY: window access while BUSY = 1. -/
  | winBusy
  deriving DecidableEq, Repr

/-- The request ports of R200, with their widths: `req_addr`, `req_we`, `req_size`, `req_wdata`. -/
structure BusReq where
  addr : BitVec 32
  we : Bool
  size : BitVec 4
  wdata : BitVec 64
  deriving DecidableEq, Repr

/-- The response ports of R200: `rsp_rdata` and `rsp_err`. -/
structure BusRsp where
  rdata : BitVec 64
  err : Bool
  deriving DecidableEq, Repr

/-- One action of the host agent (R19, R21). -/
inductive HostAction where
  /-- One bus operation (R201). -/
  | bus (r : BusReq)
  /-- The `wait` loop (R101, R232): one STATUS read a step, repeated while bit 0 of the value read is 1 (DEDUCED, log entry 13). -/
  | wait
  /-- Hardware reset, `rst_n` = 0 (R290); power loss is treated as one (R276). -/
  | hwReset
  deriving DecidableEq, Repr

end Sys2Proof.Machine
end

