-- ==== Sys2Proof/Machine/State.lean ====
section
/-! DEFINITION. The state of one XXH64 engine as plain data (R20 to R35, R47), with the parameter WINDOW_BYTES and the model's own fields
for the host, the response ports and the free values. -/

namespace Sys2Proof.Machine

/-- The transfer window WINDOW (R35): the WRITTEN bytes as (index, value) pairs, window index i being host address WIN_BASE + i (R62).
An index that is not listed is unwritten and has no value (R76), so no entry can equal what an unlisted index reads as (DESIGN CHOICE, log
entry 15). -/
abbrev Memory := List Host.Cell

/-- The canonical form: indices strictly rising. -/
def Memory.wf : Memory → Bool
  | [] => true
  | [_] => true
  | p :: q :: rest => decide (p.1 < q.1) && Memory.wf (q :: rest)

/-- The four lane registers V[1..4] (R23). -/
structure Lanes where
  v1 : Word
  v2 : Word
  v3 : Word
  v4 : Word
  deriving DecidableEq, Repr

/-- The hash state (R20): the sub-tuple that only INIT, RESET, CONSUME and hardware reset write. TAIL_CNT is the length of `tail` (R27).
The flag stands first so that Lean tells a freshly-seeded hash state from any other before it compares 64-bit words. -/
structure HashState where
  /-- LARGE (R26). -/
  large : Bool
  /-- TAIL, in arrival order (R27). -/
  tail : List Byte
  /-- TOTAL, modulo 2^64 (R25). -/
  total : Word
  /-- SEED (R22). -/
  seed : Word
  /-- ACC5 (R24). -/
  acc5 : Word
  /-- V[1..4] (R23). -/
  lanes : Lanes
  deriving DecidableEq, Repr

/-- The machine: the block's state (R20), then the parameter (R10) and the model's own fields. PENDING stands first, for the reason given
at `HashState`: every completion changes it. -/
structure State where
  /-- PENDING (R34), decoded (DEDUCED, log entry 10); BUSY is "PENDING is not none" (R33). -/
  pending : Option Instr
  /-- DVALID (R50). -/
  dvalid : Bool
  /-- ERR (R32). -/
  err : ErrCode
  /-- The hash state (R20). -/
  hash : HashState
  /-- DIGEST (R29). -/
  digest : Word
  /-- WINDOW (R35). -/
  window : Memory
  /-- The parameter WINDOW_BYTES (R10, R48): no step changes it (DESIGN CHOICE, log entry 1). -/
  windowBytes : Nat
  /-- The model's own: the host's actions still to come, next first (R21; DESIGN CHOICE, log entry 3). -/
  host : List HostAction
  /-- The model's own: `rsp_rdata` and `rsp_err` of the last bus operation (R200; DESIGN CHOICE, log entry 8). -/
  rsp : Option BusRsp
  /-- The model's own: host actions that may still come before the pending command completes (R161; DESIGN CHOICE, log entry 4). -/
  delay : Nat
  /-- The model's own: how many free values have been drawn (R76, R49, R161; DESIGN CHOICE, log entry 5). -/
  draws : Nat
  deriving DecidableEq, Repr

/-- No constructor: the block has no trap and no fault (R260, R268; 93_implementation_defined.md "the block has no faults"). Safe: nothing
is left out of a run by it (DEDUCED, log entry 14). -/
inductive Fault where
  deriving DecidableEq, Repr

/-- Why a step can be refused. -/
inductive Refusal where
  /-- Raised by an arm of `exec` whose instruction has no meaning yet; safe. No arm raises it: every command is modelled. -/
  | notModelled (mnemonic : String)
  deriving DecidableEq, Repr

/-- The machine right after hardware reset: the table of R47, WINDOW_BYTES at its default (R10), no host action queued. -/
def State.reset : State where
  pending := none
  dvalid := false
  err := .noError
  hash :=
    { large := false
      tail := []
      total := 0x0000000000000000#64
      seed := 0x0000000000000000#64
      acc5 := 0x27D4EB2F165667C5#64
      lanes := ⟨0x60EA27EEADC0B5D6#64, 0xC2B2AE3D27D4EB4F#64, 0x0000000000000000#64, 0x61C8864E7A143579#64⟩ }
  digest := 0x0000000000000000#64
  window := []
  windowBytes := Config.windowDefault
  host := []
  rsp := none
  delay := 0
  draws := 0

end Sys2Proof.Machine
end

