-- ==== Sys2Proof/Machine/Datapath.lean ====
section
/-! DEFINITION. The datapath functions of 40_datapath.md: pure and total (R120), arithmetic modulo 2^64 (R13, R134). Taken as the spec
writes them where no source vector reaches (UNVERIFIED, log entry 2). -/

namespace Sys2Proof.Machine

/-- PRIME64_1 (R17). -/
def prime1 : Word := 0x9E3779B185EBCA87#64

/-- PRIME64_2 (R17). -/
def prime2 : Word := 0xC2B2AE3D27D4EB4F#64

/-- PRIME64_3 (R17). -/
def prime3 : Word := 0x165667B19E3779F9#64

/-- PRIME64_4 (R17). -/
def prime4 : Word := 0x85EBCA77C2B2AE63#64

/-- PRIME64_5 (R17). -/
def prime5 : Word := 0x27D4EB2F165667C5#64

/-- `rotl64(x, r)`, for 1 ≤ r ≤ 63 (R13). -/
def rotl64 (x : Word) (r : Nat) : Word := (x <<< r) ||| (x >>> (64 - r))

/-- The little-endian number of a byte sequence: `Σ s[j] * 2^(8j)` (R15). -/
def leNat : List Byte → Nat
  | [] => 0
  | b :: bs => b.toNat + 256 * leNat bs

/-- `le64(s, i)` (R15). -/
def le64 (s : List Byte) (i : Nat) : Word := BitVec.ofNat 64 (leNat ((s.drop i).take 8))

/-- `le32(s, i)` (R15). -/
def le32 (s : List Byte) (i : Nat) : HalfWord := BitVec.ofNat 32 (leNat ((s.drop i).take 4))

/-- `be_bytes64(x)` (R15). -/
def beBytes64 (x : Word) : List Byte :=
  [x.extractLsb' 56 8, x.extractLsb' 48 8, x.extractLsb' 40 8, x.extractLsb' 32 8,
   x.extractLsb' 24 8, x.extractLsb' 16 8, x.extractLsb' 8 8, x.extractLsb' 0 8]

/-- The n low bytes of x, byte j being bits 8j+7:8j (R64); `le_bytes64(x)` of R15 for n = 8. -/
def leBytes (n : Nat) (x : Word) : List Byte := (List.range n).map fun j => x.extractLsb' (8 * j) 8

/-- `bswap64(x) = le64(be_bytes64(x), 0)` (R15). -/
def bswap64 (x : Word) : Word := le64 (beBytes64 x) 0

/-- ROUND (R121). -/
def round (acc input : Word) : Word := rotl64 (acc + input * prime2) 31 * prime1

/-- The lanes of LANE_INIT (R122). -/
def laneInit (seed : Word) : Lanes := ⟨seed + prime1 + prime2, seed + prime2, seed, seed - prime1⟩

/-- ACC5 of LANE_INIT, the fallback accumulator (R122). -/
def acc5Init (seed : Word) : Word := seed + prime5

/-- The freshly-seeded hash state: LANE_INIT, TOTAL = 0, LARGE = 0, TAIL empty (R163, R164, R290). -/
def hashInit (seed : Word) : HashState where
  large := false
  tail := []
  total := 0#64
  seed := seed
  acc5 := acc5Init seed
  lanes := laneInit seed

/-- CONSUME_BLOCK (R123): lane i mixes the i-th little-endian word of the 32-byte block. -/
def consumeBlock (l : Lanes) (blk : List Byte) : Lanes :=
  ⟨round l.v1 (le64 blk 0), round l.v2 (le64 blk 8), round l.v3 (le64 blk 16), round l.v4 (le64 blk 24)⟩

/-- MERGE_LANES (R124). -/
def mergeLanes (l : Lanes) : Word := rotl64 l.v1 1 + rotl64 l.v2 7 + rotl64 l.v3 12 + rotl64 l.v4 18

/-- MERGE_ROUND (R125; 90_conflicts.md C2). -/
def mergeRound (acc lane : Word) : Word := (acc ^^^ round 0#64 lane) * prime1 + prime4

/-- Step 1 of FINALIZE_FN in the large regime: MERGE_LANES, then MERGE_ROUND for V[1], V[2], V[3], V[4] in that order (R131, R133). -/
def mergeAll (l : Lanes) : Word :=
  mergeRound (mergeRound (mergeRound (mergeRound (mergeLanes l) l.v1) l.v2) l.v3) l.v4

/-- TAIL8 (R126). -/
def tail8 (acc k : Word) : Word := rotl64 (acc ^^^ round 0#64 k) 27 * prime1 + prime4

/-- TAIL4 (R127), k32 zero-extended (R14). -/
def tail4 (acc : Word) (k32 : HalfWord) : Word := rotl64 (acc ^^^ k32.zeroExtend 64 * prime1) 23 * prime2 + prime3

/-- TAIL1 (R128), b zero-extended (R14). -/
def tail1 (acc : Word) (b : Byte) : Word := rotl64 (acc ^^^ b.zeroExtend 64 * prime5) 11 * prime1

/-- n TAIL8 steps from the start of t (R129, first loop). -/
def tail8Steps : Nat → Word → List Byte → Word
  | 0, acc, _ => acc
  | n + 1, acc, t => tail8Steps n (tail8 acc (le64 t 0)) (t.drop 8)

/-- One TAIL1 step per byte, in order (R129, last loop). -/
def tail1Steps (acc : Word) (t : List Byte) : Word := t.foldl tail1 acc

/-- At most one TAIL4 step, then the TAIL1 steps (R129, after the 8-byte steps). -/
def tailRest (acc : Word) (t : List Byte) : Word :=
  if 4 ≤ t.length then tail1Steps (tail4 acc (le32 t 0)) (t.drop 4) else tail1Steps acc t

/-- TAIL_PROCESS (R129): |t| div 8 TAIL8 steps, then the rest. -/
def tailProcess (acc : Word) (t : List Byte) : Word :=
  tailRest (tail8Steps (t.length / 8) acc t) (t.drop (8 * (t.length / 8)))

/-- AVALANCHE (R130), shifts logical. -/
def avalanche (acc : Word) : Word :=
  let a := (acc ^^^ (acc >>> 33)) * prime2
  let b := (a ^^^ (a >>> 29)) * prime3
  b ^^^ (b >>> 32)

/-- Step 1 of FINALIZE_FN: the regime that LARGE selects (R131). -/
def regimeAcc (h : HashState) : Word := if h.large then mergeAll h.lanes else h.acc5

/-- FINALIZE_FN (R131): a function of the hash state that writes nothing (R132). -/
def finalizeFn (h : HashState) : Word := avalanche (tailProcess (regimeAcc h + h.total) h.tail)

end Sys2Proof.Machine
end

