-- ==== Sys2Proof/Machine/Ops.lean ====
section
/-! DEFINITION. The shared operations: one byte of the window, free values, `raise Error(c)`, the response of a bus operation, the end of a
command, hardware reset. -/

namespace Sys2Proof.Machine

/-- WINDOW[i], none where the byte is unwritten (R35, R76). -/
def Memory.read : Memory → Nat → Option Byte
  | [], _ => none
  | p :: rest, i => if p.1 = i then some p.2 else Memory.read rest i

/-- `WINDOW[i] <- b` (R35), keeping the canonical form. -/
def Memory.write : Memory → Nat → Byte → Memory
  | [], i, b => [(i, b)]
  | p :: rest, i, b =>
    if i < p.1 then (i, b) :: p :: rest
    else if i = p.1 then (i, b) :: rest
    else p :: Memory.write rest i b

/-- `MemWrite(i, |bs|, bs)` (R16): the bytes in index order from i. -/
def Memory.writeBytes : Memory → Nat → List Byte → Memory
  | m, _, [] => m
  | m, i, b :: bs => Memory.writeBytes (m.write i b) (i + 1) bs

/-- BUSY (R33; DEDUCED, log entry 9). -/
def State.busy (s : State) : Bool := s.pending.isSome

/-- TAIL_CNT (R27; DEDUCED, log entry 9). -/
def State.tailCnt (s : State) : Nat := s.hash.tail.length

/-- `MemRead(i, 1)` (R16): the written value, or for an unwritten byte a fresh draw (R76). -/
def State.readByte (s : State) (i : Nat) : Byte × State :=
  match s.window.read i with
  | some b => (b, s)
  | none => (Config.freeByte s.draws, { s with draws := s.draws + 1 })

/-- `MemRead(i, n)` (R16): n bytes in index order, each unwritten one an independent draw (R76). -/
def State.readBytes (s : State) (i : Nat) : Nat → List Byte × State
  | 0 => ([], s)
  | n + 1 =>
    let here := s.readByte i
    let more := here.2.readBytes (i + 1) n
    (here.1 :: more.1, more.2)

/-- What ERR becomes when c is raised: the first error wins (R262). -/
def stickyErr (old c : ErrCode) : ErrCode := if old = .noError then c else old

/-- `raise Error(c)` (R262): ERR by the sticky rule, `rsp_err = 1`, `rsp_rdata = 0`, and nothing else (R263). -/
def State.raise (s : State) (c : ErrCode) : State := { s with err := stickyErr s.err c, rsp := some ⟨0#64, true⟩ }

/-- The response of a bus operation that raises no error: `rsp_err = 0` (R201). -/
def State.respond (s : State) (rdata : Word) : State := { s with rsp := some ⟨rdata, false⟩ }

/-- The end of a completion: `PENDING <- none; BUSY <- 0` (R161). -/
def State.complete (s : State) : State := { s with pending := none, delay := 0 }

/-- Hardware reset (R290): every piece of the block's state at its value of R47, the hash state through LANE_INIT(0), a pending command
discarded (R291). The parameter, the host's further actions and the count of draws are no state of the block and stay (DESIGN CHOICE, log entry 12). -/
def State.hwReset (s : State) : State :=
  { hash := hashInit 0#64
    digest := 0#64
    dvalid := false
    err := .noError
    pending := none
    window := []
    windowBytes := s.windowBytes
    host := s.host
    rsp := none
    delay := 0
    draws := s.draws }

/-- The error code of a decoder's rejection (R102, R261). -/
def errOfReject : Reject → ErrCode
  | .illegalOp => .illegalOp
  | .reservedNonzero => .reservedNonzero
  | .countRange => .countRange

end Sys2Proof.Machine
end

