-- ==== Sys2Proof/Machine/Operands.lean ====
section
/-! DEFINITION. The operand forms of the commands and of the window operations, each read from or written to the window in one place. -/

namespace Sys2Proof.Machine

/-- INIT's operand: `le64(MemRead(0, 8), 0)` (R66, R163), with the draws of its unwritten bytes taken. -/
def State.seedOperand (s : State) : Word × State :=
  let r := s.readBytes 0 8
  (le64 r.1 0, r.2)

/-- CONSUME's operand: the byte stream WINDOW[0..COUNT-1] (R93, R165), with the draws of its unwritten bytes taken. A COUNT past the
window, which no decoded command has (R96), reads unwritten bytes there (DESIGN CHOICE, log entry 19). -/
def State.streamOperand (s : State) (count : BitVec 24) : List Byte × State := s.readBytes 0 count.toNat

/-- FINALIZE's destination: WINDOW[0..7], the digest big-endian (R67, R166). -/
def storeDigest (m : Memory) (d : Word) : Memory := m.writeBytes 0 (beBytes64 d)

/-- The indices FINALIZE stores to (R71). -/
def digestIndices : List Nat := List.range 8

/-- A window load of n bytes at index i (R205): little-endian, zero-extended, unwritten bytes drawn. -/
def State.loadWindow (s : State) (i n : Nat) : Word × State :=
  let r := s.readBytes i n
  (BitVec.ofNat 64 (leNat r.1), r.2)

/-- A window store of the n low bytes of v at index i (R204): little-endian. -/
def storeWindow (m : Memory) (i n : Nat) (v : Word) : Memory := m.writeBytes i (leBytes n v)

/-- The legal window access widths (R70). -/
def legalWidth (n : Nat) : Bool := n == 1 || n == 2 || n == 4 || n == 8

/-- Bits 31:0 of a 64-bit register: the `_LO` register (R68). -/
def loHalf (x : Word) : HalfWord := x.extractLsb' 0 32

/-- Bits 63:32 of a 64-bit register: the `_HI` register (R68). -/
def hiHalf (x : Word) : HalfWord := x.extractLsb' 32 32

/-- TAILW[k]: `Σ t(4k+j) * 2^(8j)`, t(p) = TAIL[p] below TAIL_CNT and 0 from there on (R44). -/
def tailWord (t : List Byte) (k : Nat) : HalfWord :=
  BitVec.ofNat 32 (leNat ((List.range 4).map fun j => t.getD (4 * k + j) 0#8))

end Sys2Proof.Machine
end

