-- ==== Sys2Proof/Machine/Flags.lean ====
section
/-! DEFINITION. The flags LARGE, DVALID, BUSY, TAIL_CNT and ERR as STATUS shows them (R31), and the register read of STATUS while BUSY = 1. -/

namespace Sys2Proof.Machine

/-- The 4-bit ERR value (R261). -/
def ErrCode.code : ErrCode → BitVec 4
  | .noError => 0#4
  | .illegalOp => 1#4
  | .countRange => 2#4
  | .reservedNonzero => 3#4
  | .cmdBusy => 4#4
  | .bus => 5#4
  | .winBusy => 6#4

/-- `{zeros, ERR, TAIL_CNT, DVALID, LARGE, BUSY}` (R31). -/
def packStatus (err : BitVec 4) (tailCnt : BitVec 5) (dvalid large busy : Bool) : HalfWord :=
  0#20 ++ err ++ tailCnt ++ BitVec.ofBool dvalid ++ BitVec.ofBool large ++ BitVec.ofBool busy

/-- STATUS (R31). -/
def State.status (s : State) : HalfWord :=
  packStatus s.err.code (BitVec.ofNat 5 s.tailCnt) s.dvalid s.hash.large s.busy

/-- STATUS read while BUSY = 1: bit 0 = 1, bits 11:8 = ERR, bits 31:12 = 0, bits 7:1 those of the draw (R49, R203). -/
def busyStatus (err : ErrCode) (drawn : HalfWord) : HalfWord :=
  0#20 ++ err.code ++ drawn.extractLsb' 1 7 ++ 1#1

end Sys2Proof.Machine
end

