-- ==== Sys2Proof/Machine/RegMap.lean ====
section
/-! DEFINITION. The address map and the register map (R30, R36 to R49, R60 to R63), with REG_READ32's value of every register (R203). -/

namespace Sys2Proof.Machine

/-- REG_BASE (R10, R60). -/
def regBase : Nat := 0x00000000

/-- Size of the register region in bytes (R60). -/
def regSize : Nat := 0x1000

/-- WIN_BASE (R10, R60). -/
def winBase : Nat := 0x00010000

/-- The value of ID, "XH64" (R30). -/
def idValue : HalfWord := 0x58483634#32

/-- The half of a 64-bit register that a 32-bit register shows (R68). -/
inductive Half where
  | lo
  | hi
  deriving DecidableEq, Repr

/-- The registers of R36. A lane V[i] is `v (i-1)`. -/
inductive Reg where
  | id
  | cmd
  | status
  | winsize
  | winbase
  | seed (h : Half)
  | total (h : Half)
  | digest (h : Half)
  | acc5 (h : Half)
  | v (i : Fin 4) (h : Half)
  | tailw (k : Fin 8)
  deriving DecidableEq, Repr

/-- The `_LO` register is at the lower offset, the `_HI` register at +4 (R68). -/
def halfOffset : Half → Nat
  | .lo => 0
  | .hi => 4

/-- The byte offset from REG_BASE (R36). -/
def regOffset : Reg → Nat
  | .id => 0x000
  | .cmd => 0x004
  | .status => 0x008
  | .winsize => 0x00C
  | .winbase => 0x010
  | .seed h => 0x018 + halfOffset h
  | .total h => 0x020 + halfOffset h
  | .digest h => 0x028 + halfOffset h
  | .acc5 h => 0x030 + halfOffset h
  | .v i h => 0x040 + 8 * i.val + halfOffset h
  | .tailw k => 0x060 + 4 * k.val

/-- Every register of R36. -/
def allRegs : List Reg :=
  [.id, .cmd, .status, .winsize, .winbase, .seed .lo, .seed .hi, .total .lo, .total .hi, .digest .lo, .digest .hi,
   .acc5 .lo, .acc5 .hi, .v 0 .lo, .v 0 .hi, .v 1 .lo, .v 1 .hi, .v 2 .lo, .v 2 .hi, .v 3 .lo, .v 3 .hi,
   .tailw 0, .tailw 1, .tailw 2, .tailw 3, .tailw 4, .tailw 5, .tailw 6, .tailw 7]

/-- The register at an offset; none where the offset is reserved (R36, R45). -/
def regAt (off : Nat) : Option Reg := allRegs.find? fun r => regOffset r == off

/-- The half of a 64-bit value (R68). -/
def halfOf (x : Word) : Half → HalfWord
  | .lo => loHalf x
  | .hi => hiHalf x

/-- Lane V[i+1] (R23). -/
def laneOf (l : Lanes) (i : Fin 4) : Word :=
  match i with
  | 0 => l.v1
  | 1 => l.v2
  | 2 => l.v3
  | 3 => l.v4

/-- The value the rules give for a register, BUSY = 0 (R30, R31, R37 to R44). -/
def State.regValue (s : State) : Reg → HalfWord
  | .id => idValue
  | .cmd => 0#32
  | .status => s.status
  | .winsize => BitVec.ofNat 32 s.windowBytes
  | .winbase => BitVec.ofNat 32 winBase
  | .seed h => halfOf s.hash.seed h
  | .total h => halfOf s.hash.total h
  | .digest h => halfOf s.digest h
  | .acc5 h => halfOf s.hash.acc5 h
  | .v i h => halfOf (laneOf s.hash.lanes i) h
  | .tailw k => tailWord s.hash.tail k.val

/-- What a read of a register returns while BUSY = 1, given the draw it would take: none where the register keeps its value (R49, R203;
CMD reads 0, DEDUCED, log entry 7). -/
def State.busyRegValue (s : State) (drawn : HalfWord) : Reg → Option HalfWord
  | .id => none
  | .cmd => none
  | .status => some (busyStatus s.err drawn)
  | .winsize => none
  | .winbase => none
  | .seed _ => some drawn
  | .total _ => some drawn
  | .digest _ => some drawn
  | .acc5 _ => some drawn
  | .v _ _ => some drawn
  | .tailw _ => some drawn

/-- REG_READ32's value and the state after its draw (R203): a reserved offset reads 0 (R45). -/
def State.readReg (s : State) (off : Nat) : HalfWord × State :=
  match regAt off with
  | none => (0#32, s)
  | some r =>
    if s.busy then
      match s.busyRegValue (Config.freeReg s.draws) r with
      | some drawn => (drawn, { s with draws := s.draws + 1 })
      | none => (s.regValue r, s)
    else (s.regValue r, s)

end Sys2Proof.Machine
end

