-- ==== Sys2Proof/Machine/Bus.lean ====
section
/-! DEFINITION. The host's bus operations (42_host_bus.md): register and window operations, command acceptance (R160), dispatch (R201),
and one action of the host agent. -/

namespace Sys2Proof.Machine

/-- Command acceptance (R160): BUSY first, then decode; a rejected word changes nothing but ERR, an accepted one only PENDING and BUSY.
The delay until completion is drawn here (R161; DESIGN CHOICE, log entry 4). -/
def accept (w : HalfWord) (s : State) : State :=
  if s.busy then s.raise .cmdBusy
  else
    match decode s.windowBytes w with
    | .error c => s.raise (errOfReject c)
    | .ok i =>
      { s with pending := some i, delay := Config.completionDelay s.draws, draws := s.draws + 1 }.respond 0#64

/-- REG_WRITE32 (R202): a write to CMD submits a command word, any other is ignored (R45). -/
def regWrite32 (off : Nat) (v : HalfWord) (s : State) : State :=
  if off = regOffset .cmd then accept v s else s.respond 0#64

/-- REG_READ32 (R203): the value in `rsp_rdata[31:0]`, zeros above. -/
def regRead32 (off : Nat) (s : State) : State :=
  (s.readReg off).2.respond ((s.readReg off).1.zeroExtend 64)

/-- WIN_WRITE (R204). -/
def winWrite (i n : Nat) (v : Word) (s : State) : State :=
  { s with window := storeWindow s.window i n v }.respond 0#64

/-- WIN_READ (R205). -/
def winRead (i n : Nat) (s : State) : State :=
  (s.loadWindow i n).2.respond (s.loadWindow i n).1

/-- An address in the register region (R60, R201). -/
def inRegRegion (addr : Nat) : Bool := decide (regBase ≤ addr) && decide (addr < regBase + regSize)

/-- An access of a legal width that lies whole in the window (R70, R201). -/
def inWindow (windowBytes addr n : Nat) : Bool :=
  legalWidth n && decide (winBase ≤ addr) && decide (addr + n ≤ winBase + windowBytes)

/-- An access to the register region: 32 bits wide and 4-aligned, or BUS (R69, R201). -/
def regOp (r : BusReq) (s : State) : State :=
  if r.size.toNat ≠ 4 ∨ r.addr.toNat % 4 ≠ 0 then s.raise .bus
  else if r.we then regWrite32 (r.addr.toNat - regBase) (r.wdata.extractLsb' 0 32) s
  else regRead32 (r.addr.toNat - regBase) s

/-- An access to the window region: naturally aligned, or BUS, and not while BUSY = 1 (R70, R201, R207). -/
def winOp (r : BusReq) (s : State) : State :=
  if (r.addr.toNat - winBase) % r.size.toNat ≠ 0 then s.raise .bus
  else if s.busy then s.raise .winBusy
  else if r.we then winWrite (r.addr.toNat - winBase) r.size.toNat r.wdata s
  else winRead (r.addr.toNat - winBase) r.size.toNat s

/-- Dispatch of a bus operation (R201), its checks in that order. -/
def busOp (r : BusReq) (s : State) : State :=
  if inRegRegion r.addr.toNat then regOp r s
  else if inWindow s.windowBytes r.addr.toNat r.size.toNat then winOp r s
  else s.raise .bus

/-- `wr32 off, v` (R100, R202). -/
def wr32 (off : Nat) (v : HalfWord) : BusReq := ⟨BitVec.ofNat 32 (regBase + off), true, 4#4, v.zeroExtend 64⟩

/-- `rd32 off` (R100, R203). -/
def rd32 (off : Nat) : BusReq := ⟨BitVec.ofNat 32 (regBase + off), false, 4#4, 0#64⟩

/-- `winwr` of n bytes at index i (R100, R204). -/
def winwr (n i : Nat) (v : Word) : BusReq := ⟨BitVec.ofNat 32 (winBase + i), true, BitVec.ofNat 4 n, v⟩

/-- `winrd` of n bytes at index i (R100, R205). -/
def winrd (n i : Nat) : BusReq := ⟨BitVec.ofNat 32 (winBase + i), false, BitVec.ofNat 4 n, 0#64⟩

/-- `wr32 CMD, w` (R99, R202). -/
def cmdWrite (w : HalfWord) : BusReq := wr32 (regOffset .cmd) w

/-- Bit 0 of the value the last bus operation read (R101). -/
def readBusyBit (s : State) : Bool :=
  match s.rsp with
  | some r => r.rdata.getLsbD 0
  | none => false

/-- The host's next action is taken off its queue, and counts against the delay of a pending command (R161). -/
def takeAction (s : State) (rest : List HostAction) : State := { s with host := rest, delay := s.delay - 1 }

/-- One STATUS read of `wait`, repeated while bit 0 of the value read is 1 (R101, R232). -/
def pollStatus (s : State) : State :=
  let polled := busOp (rd32 (regOffset .status)) s
  if readBusyBit polled then { polled with host := .wait :: polled.host } else polled

/-- One action of the host (R19). -/
def hostAct (a : HostAction) (s : State) : State :=
  match a with
  | .bus r => busOp r s
  | .wait => pollStatus s
  | .hwReset => s.hwReset

/-- The host agent's step: its next action; with none queued nothing happens (DESIGN CHOICE, log entry 11). -/
def hostStep (s : State) : State :=
  match s.host with
  | [] => s
  | a :: rest => hostAct a (takeAction s rest)

/-- Whether the engine moves next: a command is pending, and its delay has run out or the host has no further action (R161; DESIGN CHOICE, log entry 4). -/
def engineTurn (s : State) : Bool := s.busy && (decide (s.delay = 0) || s.host.isEmpty)

/-- s with the command word w where the next step runs it: in PENDING, its delay run out, if the decoder accepts w (R160, R161); else as
the host's next bus operation, which rejects it (R160). -/
def stageWord (s : State) (w : HalfWord) : State :=
  match decode s.windowBytes w with
  | .ok i => { s with pending := some i, delay := 0 }
  | .error _ => { s with pending := none, delay := 0, host := .bus (cmdWrite w) :: s.host }

end Sys2Proof.Machine
end

