-- ==== Sys2Proof/Machine/Stream.lean ====
section
/-! DEFINITION. The streaming tail buffer and CONSUME (R165, R170, R171), and the hash function that the laws are stated in (R180). -/

namespace Sys2Proof.Machine

/-- ABSORB_BYTE (R170). -/
def absorbByte (h : HashState) (b : Byte) : HashState :=
  let t := h.tail ++ [b]
  if t.length = 32 then
    { h with lanes := consumeBlock h.lanes t, total := h.total + 1#64, large := true, tail := [] }
  else
    { h with total := h.total + 1#64, tail := t }

/-- ABSORB_BYTE of each byte in order (R165). -/
def absorbBytes (h : HashState) (bs : List Byte) : HashState := bs.foldl absorbByte h

/-- CONSUME (R165): absorb WINDOW[0..COUNT-1], then DVALID ← 0. -/
def execConsume (count : BitVec 24) (s : State) : Host.Outcome State Fault Refusal :=
  .next { (s.streamOperand count).2 with
            hash := absorbBytes s.hash (s.streamOperand count).1, dvalid := false }.complete

/-- CONSUME_BLOCK of the first n 32-byte blocks of u, in order (R171). -/
def consumeBlocks : Nat → Lanes → List Byte → Lanes
  | 0, l, _ => l
  | n + 1, l, u => consumeBlocks n (consumeBlock l (u.take 32)) (u.drop 32)

/-- The chunk form of CONSUME (R171): u = t ++ s, whole blocks consumed in order, the remainder the new tail. -/
def absorbChunk (h : HashState) (s : List Byte) : HashState :=
  let u := h.tail ++ s
  let n := u.length / 32
  { h with
    lanes := consumeBlocks n h.lanes u
    total := h.total + BitVec.ofNat 64 s.length
    large := h.large || decide (1 ≤ n)
    tail := u.drop (32 * n) }

/-- `XXH64(seed, m)` (R180): FINALIZE_FN of the hash state reached from the freshly-seeded one by absorbing m. -/
def xxh64 (seed : Word) (m : List Byte) : Word := finalizeFn (absorbBytes (hashInit seed) m)

/-- The small regime on the whole message (R186): ACC5 and the length, all of m as tail. -/
def xxh64Small (seed : Word) (m : List Byte) : Word :=
  avalanche (tailProcess (seed + prime5 + BitVec.ofNat 64 m.length) m)

/-- The large regime on the whole message (R186): |m| div 32 blocks, the last |m| mod 32 bytes as tail. -/
def xxh64Large (seed : Word) (m : List Byte) : Word :=
  avalanche (tailProcess (mergeAll (consumeBlocks (m.length / 32) (laneInit seed) m) + BitVec.ofNat 64 m.length)
    (m.drop (32 * (m.length / 32))))

end Sys2Proof.Machine
end

