-- ==== Sys2Proof/Machine/Digest.lean ====
section
/-! DEFINITION. FINALIZE (R166): the digest, non-destructively, into DIGEST and big-endian into WINDOW[0..7]. -/

namespace Sys2Proof.Machine

/-- FINALIZE (R166): DIGEST and WINDOW[0..7] take the digest, DVALID ← 1, the hash state stays (R132). -/
def execFinalize (s : State) : Host.Outcome State Fault Refusal :=
  .next { s with
            digest := finalizeFn s.hash
            window := storeDigest s.window (finalizeFn s.hash)
            dvalid := true }.complete

end Sys2Proof.Machine
end

