-- ==== Sys2Proof/Machine/Lifecycle.lean ====
section
/-! DEFINITION. The meanings of NOP, INIT, RESET and CLRERR: the effect at completion (R162, R163, R164, R167), then the end of the
completion (R161). Acceptance is Machine/Bus.lean's. -/

namespace Sys2Proof.Machine

/-- A freshly-seeded hash state and DVALID ← 0: what INIT and RESET share (R163, R164). -/
def State.reseed (s : State) (seed : Word) : State := { s with hash := hashInit seed, dvalid := false }

/-- NOP (R162): nothing. -/
def execNop (s : State) : Host.Outcome State Fault Refusal := .next s.complete

/-- INIT (R163): SEED from WINDOW[0..7], the hash state from LANE_INIT of it. -/
def execInit (s : State) : Host.Outcome State Fault Refusal :=
  .next (s.seedOperand.2.reseed s.seedOperand.1).complete

/-- RESET (R164): LANE_INIT of the held SEED; the window is not read. -/
def execReset (s : State) : Host.Outcome State Fault Refusal := .next (s.reseed s.hash.seed).complete

/-- CLRERR (R167): ERR ← 0. -/
def execClrerr (s : State) : Host.Outcome State Fault Refusal := .next { s with err := .noError }.complete

end Sys2Proof.Machine
end

