-- ==== Sys2Proof/Machine/Dispatch.lean ====
section
/-! DEFINITION. One arm per command: `EFFECT(op, count)` and the end of the completion (R161; DEDUCED, log entry 16). -/

namespace Sys2Proof.Machine

def exec (i : Instr) (s : State) : Host.Outcome State Fault Refusal :=
  match i with
  | .nop => Sys2Proof.Machine.execNop s
  | .init => Sys2Proof.Machine.execInit s
  | .reset => Sys2Proof.Machine.execReset s
  | .consume count => Sys2Proof.Machine.execConsume count s
  | .finalize => Sys2Proof.Machine.execFinalize s
  | .clrerr => Sys2Proof.Machine.execClrerr s

end Sys2Proof.Machine
end

