-- ==== Sys2Proof/Machine/Step.lean ====
section
/-! DEFINITION. One step of the machine: the engine's completion of the pending command when it is the engine's turn, else the host's next
action (R19, R72, R161). -/

namespace Sys2Proof.Machine

/-- The engine fetches its command from PENDING (R161); the host issues its next bus operation (R21). -/
def step (s : State) : Host.Outcome State Fault Refusal :=
  match s.pending with
  | some i => if engineTurn s then exec i s else .next (hostStep s)
  | none => .next (hostStep s)

/-- s with the command word whose low nbits bits are w where the very next step runs it (DESIGN CHOICE, log entry 3). -/
def State.withFetchWord (s : State) (nbits w : Nat) : State := stageWord s (tableWord nbits w)

end Sys2Proof.Machine
end

