-- ==== Sys2Proof/Machine/HostAdapter.lean ====
section
/-! DEFINITION. What a host runs against the block (45_host_adapter.md) and the assembler lines and pseudo-instructions it is written in
(R99 to R101). Not hardware: each line or procedure expands to host actions (R4, R8); its checks are functions of the responses (DESIGN CHOICE, log entry
18). -/

namespace Sys2Proof.Machine

/-- The command mnemonics (R99). -/
inductive Mnemonic where
  | nop
  | init
  | reset
  | consume
  | finalize
  | clrerr
  deriving DecidableEq, Repr

/-- The mnemonic as it is written: lower case (R99). -/
def mnemonicText : Mnemonic → String
  | .nop => "nop"
  | .init => "init"
  | .reset => "reset"
  | .consume => "consume"
  | .finalize => "finalize"
  | .clrerr => "clrerr"

/-- The word a command line stands for; none where the assembler refuses it: an operand on another mnemonic than `consume`, none on
`consume`, N > 16777215, or N > WINDOW_BYTES where that is known (R99). -/
def asmCommand (windowBytes : Option Nat) (m : Mnemonic) (operand : Option Nat) : Option HalfWord :=
  match m, operand with
  | .nop, none => some 0x00000000#32
  | .init, none => some 0x10000000#32
  | .reset, none => some 0x20000000#32
  | .consume, some n =>
    if n ≤ 16777215 ∧ (∀ w ∈ windowBytes, n ≤ w) then some (0x30000000#32 ||| BitVec.ofNat 32 n) else none
  | .finalize, none => some 0x40000000#32
  | .clrerr, none => some 0x50000000#32
  | _, _ => none

/-- A register by its name or by a `0x` offset (R100). -/
inductive RegOperand where
  | named (r : Reg)
  | offset (off : Nat)
  deriving DecidableEq, Repr

/-- The offset a register operand names (R100). -/
def operandOffset : RegOperand → Nat
  | .named r => regOffset r
  | .offset off => off

/-- The 64-bit registers of `rd64` (R101). -/
inductive WideReg where
  | seed
  | total
  | digest
  | acc5
  | v (i : Fin 4)
  deriving DecidableEq, Repr

/-- The half of a 64-bit register as a register of the map (R68). -/
def wideHalf : WideReg → Half → Reg
  | .seed, h => .seed h
  | .total, h => .total h
  | .digest, h => .digest h
  | .acc5, h => .acc5 h
  | .v i, h => .v i h

/-- The value of `rd64`: `{HI, LO}` (R101). -/
def wideValue (lo hi : HalfWord) : Word := hi ++ lo

/-- The UTF-8 bytes of a text (R238). -/
def utf8Bytes (text : String) : List Byte := text.toList.flatMap fun c => (String.utf8EncodeChar c).map fun u => u.toBitVec

/-- One assembler line: a command, a bus operation or a pseudo-instruction (R99, R100, R101). -/
inductive Asm where
  | command (m : Mnemonic) (operand : Option Nat)
  | wr32 (reg : RegOperand) (v : HalfWord)
  | rd32 (reg : RegOperand)
  | winwr (n i : Nat) (v : Word)
  | winrd (n i : Nat)
  | wait
  | rd64 (x : WideReg)
  | ldseed (seed : Word)
  | winbytes (i : Nat) (bs : List Byte)
  | winstr (i : Nat) (text : String)
  | sync (m : Mnemonic) (operand : Option Nat)
  | rddigest
  deriving DecidableEq, Repr

/-- `winwr.b` of each byte, in index order from i: `winbytes` (R101), HOST_WRITE_CHUNK for i = 0 (R234). -/
def winBytes : Nat → List Byte → List HostAction
  | _, [] => []
  | i, b :: bs => .bus (winwr 1 i (b.zeroExtend 64)) :: winBytes (i + 1) bs

/-- `winbytes i, bs` (R101): where WINDOW_BYTES is known, the index and those of all the bytes are below it (R100). R101 writes the line with
at least one byte and does not say whether it may have none; a line of no byte is accepted here and expands to no operation (DESIGN CHOICE, log
entry 24). -/
def bytesLine (windowBytes : Option Nat) (i : Nat) (bs : List Byte) : Option (List HostAction) :=
  if ∀ w ∈ windowBytes, i < w ∧ i + bs.length ≤ w then some (winBytes i bs) else none

/-- `sync C`: the command, then `wait` (R101). -/
def syncWord (w : HalfWord) : List HostAction := [.bus (cmdWrite w), .wait]

/-- The expansion of a line (R99 to R101); none where the assembler refuses it. R100 leaves two points open. Where WINDOW_BYTES is not known
to the assembler, it refuses no window index, and the address is taken modulo 2^32 (DESIGN CHOICE, log entry 20). An immediate of `winwr`
wider than the access is not refused: it goes out whole on `req_wdata` (DESIGN CHOICE, log entry 21). What R101 leaves open on `winbytes` and
`winstr` stands at `bytesLine` (log entry 24). -/
def expandAsm (windowBytes : Option Nat) : Asm → Option (List HostAction)
  | .command m operand => (asmCommand windowBytes m operand).map fun w => [.bus (cmdWrite w)]
  | .wr32 reg v => some [.bus (wr32 (operandOffset reg) v)]
  | .rd32 reg => some [.bus (rd32 (operandOffset reg))]
  | .winwr n i v => if legalWidth n = true ∧ (∀ w ∈ windowBytes, i < w) then some [.bus (winwr n i v)] else none
  | .winrd n i => if legalWidth n = true ∧ (∀ w ∈ windowBytes, i < w) then some [.bus (winrd n i)] else none
  | .wait => some [.wait]
  | .rd64 x => some [.bus (rd32 (regOffset (wideHalf x .lo))), .bus (rd32 (regOffset (wideHalf x .hi)))]
  | .ldseed seed => some [.bus (winwr 8 0 seed)]
  | .winbytes i bs => bytesLine windowBytes i bs
  | .winstr i text => bytesLine windowBytes i (utf8Bytes text)
  | .sync m operand => (asmCommand windowBytes m operand).map syncWord
  | .rddigest => some [.bus (rd32 (regOffset (.digest .lo))), .bus (rd32 (regOffset (.digest .hi)))]

/-- One step of the XOR-fold of R230: byte i of the material into position i mod 8. -/
def foldSeedBytes : Nat → List Byte → List Byte → List Byte
  | _, a, [] => a
  | i, a, b :: bs => foldSeedBytes (i + 1) (a.modify (i % 8) (· ^^^ b)) bs

/-- An element of the seed material as a caller gives it: an integer, or something that is none (R230). -/
inductive SeedElement where
  | integer (x : Int)
  | notInteger
  deriving DecidableEq, Repr

/-- The byte an element stands for; none where it is outside 0..255 or no integer (R230). -/
def elementByte : SeedElement → Option Byte
  | .integer x => if 0 ≤ x ∧ x ≤ 255 then some (BitVec.ofNat 8 x.toNat) else none
  | .notInteger => none

/-- The seed material as bytes; none where an element violates the caller contract (R230). -/
def materialBytes : List SeedElement → Option (List Byte)
  | [] => some []
  | x :: xs =>
    match elementByte x, materialBytes xs with
    | some b, some bs => some (b :: bs)
    | _, _ => none

/-- DERIVE_SEED (R230): none where the host fails. -/
def deriveSeed (m : List SeedElement) : Option Word :=
  (materialBytes m).map fun bs => le64 (foldSeedBytes 0 (List.replicate 8 0#8) bs) 0

/-- One bus operation as the host sees it: what it asked and what it was answered (R200). -/
structure Exchange where
  req : BusReq
  rsp : BusRsp
  deriving DecidableEq, Repr

/-- A read of STATUS (R31, R203). -/
def Exchange.readsStatus (e : Exchange) : Bool :=
  !e.req.we && e.req.addr.toNat == regBase + regOffset .status && e.req.size.toNat == 4

/-- The 32-bit value read (R203). -/
def Exchange.value (e : Exchange) : HalfWord := e.rsp.rdata.extractLsb' 0 32

/-- ERR in a STATUS value (R31). -/
def statusErr (status : HalfWord) : BitVec 4 := status.extractLsb' 8 4

/-- A STATUS read that returned BUSY = 0 (R232, R303). -/
def Exchange.readsIdle (e : Exchange) : Bool := e.readsStatus && !e.rsp.err && !e.value.getLsbD 0

/-- What makes a host procedure fail (R240): `rsp_err` = 1, or STATUS.ERR ≠ 0 in a STATUS read after its command completed, which is one that
returned BUSY = 0 (DEDUCED, log entry 18). -/
def Exchange.failed (e : Exchange) : Bool := e.rsp.err || (e.readsIdle && decide (statusErr e.value ≠ 0#4))

/-- No response had `rsp_err` = 1 (R240). -/
def noneRefused (trace : List Exchange) : Bool := trace.all fun e => !e.rsp.err

/-- No exchange of the procedure failed (R240). -/
def procedureOk (trace : List Exchange) : Bool := trace.all fun e => !e.failed

/-- The data answered to a request, its first time in the trace. -/
def answerTo (trace : List Exchange) (r : BusReq) : Option Word :=
  (trace.find? fun e => decide (e.req = r)).map fun e => e.rsp.rdata

/-- The read of ID answered the block's identification: a usable engine (R30, R231). -/
def idOk (trace : List Exchange) : Bool := decide (answerTo trace (rd32 (regOffset .id)) = some (idValue.zeroExtend 64))

/-- The seed of a new hasher: DERIVE_SEED of its material, 0 without material; none where the derivation fails (R230, R231). -/
def creationSeed : Option (List SeedElement) → Option Word
  | some m => deriveSeed m
  | none => some 0#64

/-- HOST_CREATE from the seed on: `ldseed s`, `sync init`, `rd32 STATUS` (R231). -/
def hostInit (seed : Word) : List HostAction :=
  [.bus (winwr 8 0 seed)] ++ syncWord 0x10000000#32 ++ [.bus (rd32 (regOffset .status))]

/-- The bus operations of HOST_CREATE, from what was answered so far (R231): ID is read first, and the creation ends there where it answers
something else or the material is bad. Without material R231 leaves it to the host to skip the window write and INIT after hardware reset; this
host always issues both (DESIGN CHOICE, log entry 23). -/
def hostCreate (material : Option (List SeedElement)) (trace : List Exchange) : List HostAction :=
  .bus (rd32 (regOffset .id)) ::
    if idOk trace then
      match creationSeed material with
      | some seed => hostInit seed
      | none => []
    else []

/-- HOST_WAIT (R232). -/
def hostWait : List HostAction := [.wait]

/-- HOST_RESET (R233). -/
def hostReset : List HostAction := syncWord 0x20000000#32

/-- HOST_WRITE_CHUNK (R234). -/
def hostWriteChunk (c : List Byte) : List HostAction := winBytes 0 c

/-- The input in consecutive chunks of at most WINDOW_BYTES bytes (R235); `fuel` bounds their number. -/
def chunksOf (windowBytes : Nat) : Nat → List Byte → List (List Byte)
  | 0, _ => []
  | _, [] => []
  | fuel + 1, data => data.take windowBytes :: chunksOf windowBytes fuel (data.drop windowBytes)

/-- One chunk of HOST_UPDATE: HOST_WRITE_CHUNK, then `sync consume |c|` (R235). -/
def hostChunk (c : List Byte) : List HostAction :=
  hostWriteChunk c ++ syncWord (0x30000000#32 ||| BitVec.ofNat 32 c.length)

/-- HOST_UPDATE (R235): empty data issues no command. -/
def hostUpdate (windowBytes : Nat) (data : List Byte) : List HostAction :=
  (chunksOf windowBytes data.length data).flatMap hostChunk

/-- The data operand of HOST_UPDATE and HOST_HASH: bytes, or text (R235). -/
inductive HostData where
  | bytes (bs : List Byte)
  | text (content : String)
  deriving DecidableEq, Repr

/-- The bytes that enter the hash: a text's UTF-8 bytes (R235, R238). -/
def dataBytes : HostData → List Byte
  | .bytes bs => bs
  | .text content => utf8Bytes content

/-- The bus operations of HOST_DIGEST (R237). -/
def hostDigest : List HostAction := syncWord 0x40000000#32 ++ [.bus (winrd 8 0)]

/-- HOST_DIGEST's other expansion: the digest is read from DIGEST_LO and DIGEST_HI (R237). -/
def hostDigestByRegisters : List HostAction :=
  syncWord 0x40000000#32 ++ [.bus (rd32 (regOffset (.digest .lo))), .bus (rd32 (regOffset (.digest .hi)))]

/-- The value r of HOST_DIGEST, where the two halves of DIGEST were read: the byte swap is the host's (R237). -/
def digestOfHalves (lo hi : HalfWord) : Word := bswap64 (wideValue lo hi)

/-- How a host goes on after an error: `sync clrerr`, then HOST_RESET and the whole input again (R240). -/
def hostRecover (windowBytes : Nat) (data : List Byte) : List HostAction :=
  syncWord 0x50000000#32 ++ hostReset ++ hostUpdate windowBytes data

/-- The bus operations of HOST_HASH (R239). -/
def hostHash (windowBytes : Nat) (data : List Byte) : List HostAction :=
  hostReset ++ hostUpdate windowBytes data ++ hostDigest

/-- The digest formats (R236). -/
inductive DigestFormat where
  | raw
  | hex
  | bigint
  deriving DecidableEq, Repr

/-- The format a name asks for; "numeric" is "bigint", any other name is refused (92_eei_decisions.md D31, R237). -/
def formatOfName (name : String) : Option DigestFormat :=
  if name = "raw" then some .raw
  else if name = "hex" then some .hex
  else if name = "bigint" then some .bigint
  else if name = "numeric" then some .bigint
  else none

/-- The format of a call: the one it names, "raw" where it names none (R236, R237). -/
def formatOf : Option String → Option DigestFormat
  | none => some .raw
  | some name => formatOfName name

/-- One lowercase hexadecimal digit (R236). -/
def hexDigit (d : BitVec 4) : Char := Char.ofNat (if d.toNat < 10 then 48 + d.toNat else 87 + d.toNat)

/-- "raw": the bytes WINDOW[0..7] in index order (R236). -/
def rawForm (d : Word) : List Byte := beBytes64 d

/-- "bigint": the little-endian reading of the raw bytes (R236). -/
def bigintForm (d : Word) : Nat := (bswap64 d).toNat

/-- The 16 hexadecimal digit values of x, most significant first. -/
def nibbles (x : Word) : List (BitVec 4) := (List.range 16).map fun k => x.extractLsb' (60 - 4 * k) 4

/-- "hex": the 16 lowercase digits of the bigint value (R236; 90_conflicts.md C6). -/
def hexForm (d : Word) : List Char := (nibbles (bswap64 d)).map hexDigit

/-- A rendered digest (R236). -/
inductive Rendered where
  | raw (bytes : List Byte)
  | hex (digits : String)
  | bigint (value : Nat)
  deriving DecidableEq, Repr

/-- `render(format, r)` of the value r that HOST_DIGEST read from WINDOW[0..7], which is bswap64 of DIGEST (R236, R237). -/
def render (r : Word) : DigestFormat → Rendered
  | .raw => .raw (rawForm (bswap64 r))
  | .hex => .hex (String.ofList (hexForm (bswap64 r)))
  | .bigint => .bigint (bigintForm (bswap64 r))

/-- HOST_DIGEST's result, from its own read: it fails outright on an error (R237, R240). -/
def digestResult (format : Option String) (trace : List Exchange) : Option Rendered :=
  match formatOf format, answerTo trace (winrd 8 0) with
  | some f, some r => if procedureOk trace then some (render r f) else none
  | _, _ => none

/-- A call of a host procedure (R231 to R235, R237, R239), its format none where the caller names none. -/
inductive HostCall where
  | create (material : Option (List SeedElement))
  | wait
  | reset
  | writeChunk (c : List Byte)
  | update (data : HostData)
  | digest (format : Option String)
  | hash (data : HostData) (format : Option String)
  deriving DecidableEq, Repr

/-- What a successful call returns: nothing (R232, R234), the hasher itself, for chaining (R231, R233, R235), or a rendered digest (R237). -/
inductive HostValue where
  | unit
  | hasher
  | digest (result : Rendered)
  deriving DecidableEq, Repr

/-- The bus operations of a call, from what was answered so far; no operation where the host refuses the call before any command, its
format being unknown (92_eei_decisions.md D31, 93_implementation_defined.md I20). -/
def hostActions (windowBytes : Nat) (call : HostCall) (trace : List Exchange) : List HostAction :=
  match call with
  | .create material => hostCreate material trace
  | .wait => hostWait
  | .reset => hostReset
  | .writeChunk c => hostWriteChunk c
  | .update data => hostUpdate windowBytes (dataBytes data)
  | .digest format => if (formatOf format).isSome then hostDigest else []
  | .hash data format => if (formatOf format).isSome then hostHash windowBytes (dataBytes data) else []

/-- The actions still to come once the exchanges answer those before them, in order: a bus operation is one exchange, `wait` one for each
poll until one returns bit 0 = 0 (R232). A hardware reset is no exchange; no procedure holds one. -/
def actionsAfter : List HostAction → List Exchange → List HostAction
  | actions, [] => actions
  | [], _ :: _ => []
  | .bus _ :: rest, _ :: es => actionsAfter rest es
  | .wait :: rest, e :: es => if e.value.getLsbD 0 then actionsAfter (.wait :: rest) es else actionsAfter rest es
  | .hwReset :: rest, _ :: _ => .hwReset :: rest

/-- What a call has still to issue (R240). -/
def toCome (windowBytes : Nat) (call : HostCall) (trace : List Exchange) : List HostAction :=
  actionsAfter (hostActions windowBytes call trace) trace

/-- HOST_CREATE gives a usable hasher: right ID, good material, no `rsp_err`, ERR = 0 (R230, R231, R240). -/
def creationOk (material : Option (List SeedElement)) (trace : List Exchange) : Bool :=
  idOk trace && (creationSeed material).isSome && procedureOk trace

/-- What a call returns at its end, from all its exchanges; none is failure, with no partial result (R240). HOST_WAIT has no command of its own,
so an ERR it reads is no failure of it (R232; DEDUCED, log entry 18). -/
def hostResult : HostCall → List Exchange → Option HostValue
  | .create material, trace => if creationOk material trace then some .hasher else none
  | .wait, trace => if noneRefused trace then some .unit else none
  | .reset, trace => if procedureOk trace then some .hasher else none
  | .writeChunk _, trace => if procedureOk trace then some .unit else none
  | .update _, trace => if procedureOk trace then some .hasher else none
  | .digest format, trace => (digestResult format trace).map .digest
  | .hash _ format, trace => (digestResult format trace).map .digest

/-- How far a call has come: not at its end, failed, or returned a value (R240). -/
inductive HostReport where
  | unfinished
  | failed
  | success (value : HostValue)
  deriving DecidableEq, Repr

/-- What a call reports to its caller once the exchanges are made: nothing before its last operation is answered (R240; DESIGN CHOICE, log
entry 18). -/
def hostReport (windowBytes : Nat) (call : HostCall) (trace : List Exchange) : HostReport :=
  if (toCome windowBytes call trace).isEmpty then
    match hostResult call trace with
    | some value => .success value
    | none => .failed
  else .unfinished

end Sys2Proof.Machine
end

