-- ==== Sys2Proof/Machine/HostRun.lean ====
section
/-! DEFINITION. What the host sees of a run of the machine: its exchanges (R200), the result of a call of a host procedure (R240), the end of
a run and the observable result there (R303). -/

namespace Sys2Proof.Machine

/-- The host's exchange in the step from s: none where the engine moves, the action is a hardware reset, or nobody moves. -/
def stepExchange (s : State) : Option Exchange :=
  if engineTurn s then none
  else
    match s.host with
    | [] => none
    | .bus r :: _ => (hostStep s).rsp.map fun rsp => ⟨r, rsp⟩
    | .wait :: _ => (hostStep s).rsp.map fun rsp => ⟨rd32 (regOffset .status), rsp⟩
    | .hwReset :: _ => none

/-- The host's exchanges in the first k steps from s, in order. -/
def traceOf : Nat → State → List Exchange
  | 0, _ => []
  | k + 1, s =>
    match step s with
    | .next t => (stepExchange s).toList ++ traceOf k t
    | .fault _ => []
    | .refused _ => []

/-- s with what the call has still to issue as the host's queue. -/
def queueCall (call : HostCall) (trace : List Exchange) (s : State) : State :=
  { s with host := toCome s.windowBytes call trace }

/-- The call's exchanges after k more steps from s, those before them being `trace`: what the host issues follows from what it was
answered (R231). -/
def callTrace (call : HostCall) : Nat → List Exchange → State → List Exchange
  | 0, trace, _ => trace
  | k + 1, trace, s =>
    match step (queueCall call trace s) with
    | .next t => callTrace call k (trace ++ (stepExchange (queueCall call trace s)).toList) t
    | .fault _ => trace
    | .refused _ => trace

/-- What a call made in s has reported after k steps (R240). -/
def callReport (call : HostCall) (k : Nat) (s : State) : HostReport := hostReport s.windowBytes call (callTrace call k [] s)

/-- The step from s ends the run: it is the host's last operation, a STATUS read, and it returned BUSY = 0 (R303; DEDUCED, log entry 22). -/
def endsRun (s : State) : Bool :=
  (hostStep s).host.isEmpty &&
    match stepExchange s with
    | some e => e.readsIdle
    | none => false

/-- The observable result of a run (R303): the registers of R36, in the order of `allRegs`, and the written window bytes. What an unwritten
byte holds is no part of it. -/
structure Observation where
  regs : List HalfWord
  window : Memory
  deriving DecidableEq, Repr

/-- The observable result in a state (R303). -/
def observe (s : State) : Observation := ⟨allRegs.map s.regValue, s.window⟩

end Sys2Proof.Machine
end

