-- ==== Sys2Proof/Safety.lean ====
section
/-! DEFINITION. What counts as a good state and a safe run: the invariant of the machine, the states a host can bring it to, runs of
completed commands, and the end of a run (R303). -/

namespace Sys2Proof.Machine

/-- The invariant: the parameter in its range (R10), the window canonical and inside WINDOW_BYTES (R35), the hash state the one that some
byte sequence leaves (R28, R180), a pending command legal (R34, R102), DIGEST current when DVALID = 1 (R50). -/
structure State.Inv (s : State) : Prop where
  paramRange : Config.windowMin ≤ s.windowBytes ∧ s.windowBytes ≤ Config.windowMax
  windowCanonical : s.window.wf = true
  windowInside : ∀ c ∈ s.window, c.1 < s.windowBytes
  hashAbsorbed : ∃ m : List Byte, s.hash = absorbBytes (hashInit s.hash.seed) m
  pendingLegal : ∀ i, s.pending = some i → i.wf s.windowBytes = true
  digestCurrent : s.dvalid = true → s.digest = finalizeFn s.hash

/-- R28 with R27's bound: some number B of blocks was consumed, TOTAL = TAIL_CNT + 32·B modulo 2^64, and LARGE = (B ≥ 1). -/
def State.CountInv (s : State) : Prop :=
  s.tailCnt ≤ 31 ∧ ∃ blocks : Nat,
    s.hash.total = BitVec.ofNat 64 (s.tailCnt + 32 * blocks) ∧ (s.hash.large = true ↔ 1 ≤ blocks)

/-- The states a host can bring the block to: after reset with any WINDOW_BYTES of the range, the host chooses its actions freely at any
time, and the machine steps. -/
inductive Reachable : State → Prop where
  | start (windowBytes : Nat) (h : Config.windowMin ≤ windowBytes ∧ windowBytes ≤ Config.windowMax) :
      Reachable { State.reset with windowBytes := windowBytes }
  | choose (s : State) (actions : List HostAction) : Reachable s → Reachable { s with host := actions }
  | stepped (s t : State) : Reachable s → step s = .next t → Reachable t

/-- k steps. -/
def runSteps : Nat → State → Host.Outcome State Fault Refusal
  | 0, s => .next s
  | k + 1, s =>
    match step s with
    | .next t => runSteps k t
    | .fault r => .fault r
    | .refused r => .refused r

/-- `CommandRun s m u`: from s, completed commands that absorb m in all, with any bus operations, NOPs, CLRERRs and FINALIZEs between them,
lead to u (R181, R185). A CONSUME's piece is the window content that its COUNT covers. -/
inductive CommandRun (s : State) : List Byte → State → Prop where
  | none : CommandRun s [] s
  | bus (m : List Byte) (u : State) (r : BusReq) : CommandRun s m u → CommandRun s m (busOp r u)
  | quiet (m : List Byte) (u v : State) (i : Instr) (hi : i = .nop ∨ i = .clrerr ∨ i = .finalize) :
      CommandRun s m u → exec i u = .next v → CommandRun s m v
  | consume (m piece : List Byte) (u v : State) (count : BitVec 24) (hlen : piece.length = count.toNat)
      (hread : ∀ j, j < piece.length → u.window.read j = piece[j]?) :
      CommandRun s m u → exec (.consume count) u = .next v → CommandRun s (m ++ piece) v

/-- The run from s ends after k steps, in t, with the observable result o (R303). -/
def RunEnds (s : State) (k : Nat) (t : State) (o : Observation) : Prop :=
  ∃ j u, k = j + 1 ∧ runSteps j s = .next u ∧ endsRun u = true ∧ step u = .next t ∧ o = observe t

/-- A run is safe when the invariant holds and no error is recorded (R240, R262). -/
def State.Safe (s : State) : Prop := s.Inv ∧ s.err = .noError

end Sys2Proof.Machine
end

