-- ==== Sys2Proof/Certificates/Slice0/Obligations.lean ====
section
/-! DEFINITION. The statements for the provers, from the numbered rules of spec/; each docstring names the rule it formalises. -/

open Sys2Proof Sys2Proof.Machine

/-- Decoding the word of a legal command gives the command back, COUNT at every value (30_encoding.md R90, R93, R94, R102). Derived. -/
def Obligations.DecodeOfEncodeIsTheCommand : Prop :=
  ∀ (windowBytes : Nat) (i : Instr), i.wf windowBytes = true → decode windowBytes (encode i) = .ok i

/-- A word the decoder accepts is exactly the word of the command it gives, and that command is legal (30_encoding.md R94, R95, R96,
R102). Derived. -/
def Obligations.EncodeOfDecodeIsTheWord : Prop :=
  ∀ (windowBytes : Nat) (w : HalfWord) (i : Instr),
    decode windowBytes w = .ok i → encode i = w ∧ i.wf windowBytes = true

/-- The decoder, total on all words, in the check order of R102 (R102). -/
def Obligations.DecodeFollowsTheCheckOrder : Prop :=
  ∀ (windowBytes : Nat) (w : HalfWord),
    let op := w.toNat / 2 ^ 28
    let rsv := w.toNat / 2 ^ 24 % 16
    let count := w.toNat % 2 ^ 24
    (6 ≤ op → decode windowBytes w = .error .illegalOp) ∧
    (op < 6 → rsv ≠ 0 → decode windowBytes w = .error .reservedNonzero) ∧
    (op < 6 → rsv = 0 → op ≠ 3 → count ≠ 0 → decode windowBytes w = .error .reservedNonzero) ∧
    (op = 3 → rsv = 0 → windowBytes < count → decode windowBytes w = .error .countRange) ∧
    (op = 0 → rsv = 0 → count = 0 → decode windowBytes w = .ok .nop) ∧
    (op = 1 → rsv = 0 → count = 0 → decode windowBytes w = .ok .init) ∧
    (op = 2 → rsv = 0 → count = 0 → decode windowBytes w = .ok .reset) ∧
    (op = 3 → rsv = 0 → count ≤ windowBytes → decode windowBytes w = .ok (.consume (BitVec.ofNat 24 count))) ∧
    (op = 4 → rsv = 0 → count = 0 → decode windowBytes w = .ok .finalize) ∧
    (op = 5 → rsv = 0 → count = 0 → decode windowBytes w = .ok .clrerr)

/-- A few command words written out from the encoding table decode to what they stand for (30_encoding.md R99, 95_test_vectors.md section
2.6). Derived. -/
def Obligations.DecodeWordsWrittenOut : Prop :=
  decode 16384 0x00000000#32 = .ok .nop ∧
  decode 16384 0x10000000#32 = .ok .init ∧
  decode 16384 0x20000000#32 = .ok .reset ∧
  decode 16384 0x30000000#32 = .ok (.consume 0#24) ∧
  decode 16384 0x30000003#32 = .ok (.consume 3#24) ∧
  decode 16384 0x30004000#32 = .ok (.consume 16384#24) ∧
  decode 16384 0x40000000#32 = .ok .finalize ∧
  decode 16384 0x50000000#32 = .ok .clrerr ∧
  decode 16384 0x30004001#32 = .error .countRange ∧
  decode 16384 0x60000000#32 = .error .illegalOp

/-- The decoder agrees with the opcode map: match and mask select exactly one row for an accepted word, none for an unmatched one
(30_encoding.md R94, R102). Derived. -/
def Obligations.WordSelectsAtMostOneOpcodeRow : Prop :=
  (∀ (windowBytes : Nat) (w : HalfWord) (i : Instr), decode windowBytes w = .ok i →
    rowOf i ∈ opcodeMap ∧ w &&& (rowOf i).mask = (rowOf i).matchBits) ∧
  (∀ (windowBytes : Nat) (w : HalfWord), (∀ row ∈ opcodeMap, w &&& row.mask ≠ row.matchBits) →
    ∃ c, decode windowBytes w = .error c) ∧
  (∀ (w : HalfWord) (p q : OpcodeRow), p ∈ opcodeMap → q ∈ opcodeMap →
    w &&& p.mask = p.matchBits → w &&& q.mask = q.matchBits → p = q)

/-- The assembler writes exactly the words that the decoder accepts (30_encoding.md R99). Derived. -/
def Obligations.AssembledCommandsAreAccepted : Prop :=
  ∀ windowBytes : Nat,
    (∀ (m : Mnemonic) (operand : Option Nat) (w : HalfWord), asmCommand (some windowBytes) m operand = some w →
      ∃ i, decode windowBytes w = .ok i) ∧
    (∀ i : Instr, i.wf windowBytes = true → ∃ m operand, asmCommand (some windowBytes) m operand = some (encode i)) ∧
    (∀ n, windowBytes < n ∨ 16777215 < n → asmCommand (some windowBytes) .consume (some n) = none) ∧
    (∀ (m : Mnemonic) (n : Nat), m ≠ .consume → asmCommand (some windowBytes) m (some n) = none)

/-- A CMD write: CMD_BUSY while a command is pending, else the decoder decides between a refusal and acceptance (R160). -/
def Obligations.CommandWriteIsAcceptedOrRefused : Prop :=
  ∀ (s : State) (w : HalfWord) (high : BitVec 32),
    let write : BusReq := ⟨0x00000004#32, true, 4#4, high ++ w⟩
    (s.pending ≠ none → busOp write s = { s with err := if s.err = .noError then .cmdBusy else s.err, rsp := some ⟨0#64, true⟩ }) ∧
    (s.pending = none → ∀ c, decode s.windowBytes w = .error c → busOp write s =
      { s with err := if s.err = .noError then errOfReject c else s.err, rsp := some ⟨0#64, true⟩ }) ∧
    (s.pending = none → ∀ i, decode s.windowBytes w = .ok i → ∃ d n, busOp write s =
      { s with pending := some i, delay := d, draws := n, rsp := some ⟨0#64, false⟩ } ∧ (busOp write s).busy = true)

/-- Illegal and reserved command words are refused with codes 1, 3 and 2 and have no other effect (R95, R96). -/
def Obligations.IllegalAndReservedWordsRecordTheirCode : Prop :=
  ErrCode.illegalOp.code = 1#4 ∧ ErrCode.countRange.code = 2#4 ∧ ErrCode.reservedNonzero.code = 3#4 ∧
  ∀ (s : State) (w : HalfWord), s.pending = none →
    let op := w.toNat / 2 ^ 28
    let rsv := w.toNat / 2 ^ 24 % 16
    let count := w.toNat % 2 ^ 24
    let after := busOp ⟨0x00000004#32, true, 4#4, w.zeroExtend 64⟩ s
    (6 ≤ op → after = { s with err := if s.err = .noError then .illegalOp else s.err, rsp := some ⟨0#64, true⟩ }) ∧
    (op < 6 → rsv ≠ 0 ∨ (op ≠ 3 ∧ count ≠ 0) → after =
      { s with err := if s.err = .noError then .reservedNonzero else s.err, rsp := some ⟨0#64, true⟩ }) ∧
    (op = 3 → rsv = 0 → s.windowBytes < count → after =
      { s with err := if s.err = .noError then .countRange else s.err, rsp := some ⟨0#64, true⟩ })

/-- A step runs the decoded command: a staged word at once (model's choice, log entry 3), a CMD write one step after acceptance (model's
choice, log entry 4) (41_commands.md R160, R161, R102). Derived. -/
def Obligations.StepRunsTheDecodedCommand : Prop :=
  ∀ (s : State) (w : HalfWord),
    (∀ i, decode s.windowBytes w = .ok i →
      step (s.withFetchWord 32 w.toNat) = exec i (s.withFetchWord 32 w.toNat)) ∧
    (∀ i, decode s.windowBytes w = .ok i → s.pending = none → s.host = [.bus (cmdWrite w)] →
      ∃ t, step s = .next t ∧ t.pending = some i ∧ t.hash = s.hash ∧ t.window = s.window ∧ step t = exec i t) ∧
    (∀ c, decode s.windowBytes w = .error c →
      ∃ t, step (s.withFetchWord 32 w.toNat) = .next t ∧ t.pending = none ∧ t.hash = s.hash ∧ t.window = s.window ∧
        t.err = (if s.err = .noError then errOfReject c else s.err) ∧ t.rsp = some ⟨0#64, true⟩)

/-- One step is the completion of the pending command, or the host's next action (the turn rule is the model's, log entry 4) (00_scope.md
R19, 41_commands.md R161). The third clause, that a step with no pending command and no host action changes nothing, is the model's choice too
(DESIGN CHOICE, log entry 11). Derived. -/
def Obligations.StepIsEngineOrHost : Prop :=
  ∀ s : State,
    (∀ i, s.pending = some i → s.delay = 0 ∨ s.host = [] → step s = exec i s) ∧
    (∀ a rest, s.host = a :: rest → s.pending = none ∨ s.delay ≠ 0 →
      step s = .next (hostAct a { s with host := rest, delay := s.delay - 1 })) ∧
    (s.pending = none → s.host = [] → step s = .next s)

/-- NOP completes and changes nothing but PENDING and BUSY (41_commands.md R162, R161). Derived. -/
def Obligations.NopCompletesWithoutEffect : Prop :=
  ∀ s : State, exec .nop s = .next { s with pending := none, delay := 0 }

/-- INIT completes: SEED little-endian from WINDOW[0..7], lanes and ACC5 from it, counters and tail cleared (41_commands.md R163, R122,
20_memory.md R66, R76). Derived. -/
def Obligations.InitLoadsTheSeedAndReseeds : Prop :=
  ∀ s : State, ∃ t, exec .init s = .next t ∧
    (∀ j b, j < 8 → s.window.read j = some b → t.hash.seed.extractLsb' (8 * j) 8 = b) ∧
    t.hash.lanes.v1 = t.hash.seed + 0x9E3779B185EBCA87#64 + 0xC2B2AE3D27D4EB4F#64 ∧
    t.hash.lanes.v2 = t.hash.seed + 0xC2B2AE3D27D4EB4F#64 ∧
    t.hash.lanes.v3 = t.hash.seed ∧
    t.hash.lanes.v4 = t.hash.seed - 0x9E3779B185EBCA87#64 ∧
    t.hash.acc5 = t.hash.seed + 0x27D4EB2F165667C5#64 ∧
    t.hash.total = 0#64 ∧ t.hash.large = false ∧ t.hash.tail = [] ∧ t.dvalid = false ∧ t.pending = none ∧
    t.digest = s.digest ∧ t.err = s.err ∧ t.window = s.window ∧ t.windowBytes = s.windowBytes ∧
    t.host = s.host ∧ t.rsp = s.rsp

/-- RESET completes: the freshly-seeded state of the held SEED, and nothing else changes (41_commands.md R164, R122). Derived. -/
def Obligations.ResetReseedsWithTheHeldSeed : Prop :=
  ∀ s : State, exec .reset s = .next
    { s with
      hash :=
        { seed := s.hash.seed
          lanes := ⟨s.hash.seed + 0x9E3779B185EBCA87#64 + 0xC2B2AE3D27D4EB4F#64, s.hash.seed + 0xC2B2AE3D27D4EB4F#64,
            s.hash.seed, s.hash.seed - 0x9E3779B185EBCA87#64⟩
          acc5 := s.hash.seed + 0x27D4EB2F165667C5#64
          total := 0#64
          large := false
          tail := [] }
      dvalid := false
      pending := none
      delay := 0 }

/-- CONSUME completes: it absorbs COUNT window bytes in index order and clears DVALID (41_commands.md R165, 20_memory.md R76). Derived. -/
def Obligations.ConsumeAbsorbsTheWindowBytes : Prop :=
  ∀ (s : State) (count : BitVec 24), ∃ bs t, exec (.consume count) s = .next t ∧
    bs.length = count.toNat ∧ (∀ j b, j < count.toNat → s.window.read j = some b → bs[j]? = some b) ∧
    t.hash = absorbBytes s.hash bs ∧ t.dvalid = false ∧ t.pending = none ∧
    t.digest = s.digest ∧ t.err = s.err ∧ t.window = s.window ∧ t.windowBytes = s.windowBytes ∧
    t.host = s.host ∧ t.rsp = s.rsp

/-- FINALIZE completes: DIGEST, WINDOW[0..7] big-endian and DVALID, the hash state untouched (41_commands.md R166, R67, R132). Derived. -/
def Obligations.FinalizeWritesTheDigest : Prop :=
  ∀ s : State, ∃ t, exec .finalize s = .next t ∧ t.digest = finalizeFn s.hash ∧
    (∀ j, j < 8 → t.window.read j = some ((finalizeFn s.hash).extractLsb' (56 - 8 * j) 8)) ∧
    t.dvalid = true ∧ t.pending = none ∧ t.hash = s.hash ∧ t.err = s.err ∧ t.windowBytes = s.windowBytes ∧
    t.host = s.host ∧ t.rsp = s.rsp

/-- CLRERR completes: ERR becomes NONE and nothing else changes (41_commands.md R167, R161). Derived. -/
def Obligations.ClrerrClearsOnlyTheError : Prop :=
  ∀ s : State, exec .clrerr s = .next { s with err := .noError, pending := none, delay := 0 }

/-- Frame of NOP, INIT, RESET, CONSUME and CLRERR: every window byte and every register they do not name stays (41_commands.md R162 to
R165 and R167, 20_memory.md R75). Derived. -/
def Obligations.NonStoringCommandsFrame : Prop :=
  ∀ (s t : State) (i : Instr), i ≠ .finalize → exec i s = .next t →
    (∀ a, t.window.read a = s.window.read a) ∧ t.digest = s.digest ∧ t.windowBytes = s.windowBytes ∧
    t.host = s.host ∧ t.rsp = s.rsp ∧ (i ≠ .clrerr → t.err = s.err) ∧
    (i ≠ .init → t.hash.seed = s.hash.seed) ∧ (i ≠ .init → i ≠ .reset → t.hash.acc5 = s.hash.acc5) ∧
    (i = .nop ∨ i = .clrerr → t.hash = s.hash ∧ t.dvalid = s.dvalid) ∧
    (∀ count, i = .consume count → s.hash.large = true → t.hash.large = true)

/-- Frame of FINALIZE: every window byte outside the eight it stores to, and the whole hash state, stay (41_commands.md R166, R132, R71).
Derived. -/
def Obligations.FinalizeFrame : Prop :=
  (∀ a, a ∈ digestIndices ↔ a < 8) ∧
  ∀ s t : State, exec .finalize s = .next t →
    (∀ a, a ∉ digestIndices → t.window.read a = s.window.read a) ∧ t.hash = s.hash ∧ t.err = s.err ∧
    t.windowBytes = s.windowBytes ∧ t.host = s.host ∧ t.rsp = s.rsp ∧ t.draws = s.draws

/-- rotl64 by r moves bit i to bit i + r modulo 64 (00_scope.md R13). Derived. -/
def Obligations.RotateMovesEveryBit : Prop :=
  ∀ (x : Word) (r i : Nat), 1 ≤ r → r ≤ 63 → i < 64 →
    (rotl64 x r).getLsbD i = x.getLsbD ((i + (64 - r)) % 64)

/-- The datapath formulas with their constants, the 32-bit tail word and the tail byte entering their products as unsigned numbers
(00_scope.md R14, R15, R17, 40_datapath.md R121, R123, R124, R125, R126, R127, R128, R130). Derived. -/
def Obligations.TailWordsAreZeroExtended : Prop :=
  (∀ acc input : Word, Machine.round acc input =
    rotl64 (acc + input * 0xC2B2AE3D27D4EB4F#64) 31 * 0x9E3779B185EBCA87#64) ∧
  (∀ (l : Lanes) (blk : List Byte), consumeBlock l blk =
    ⟨Machine.round l.v1 (le64 blk 0), Machine.round l.v2 (le64 blk 8), Machine.round l.v3 (le64 blk 16),
      Machine.round l.v4 (le64 blk 24)⟩) ∧
  (∀ l : Lanes, mergeLanes l = rotl64 l.v1 1 + rotl64 l.v2 7 + rotl64 l.v3 12 + rotl64 l.v4 18) ∧
  (∀ acc lane : Word, mergeRound acc lane =
    (acc ^^^ rotl64 (lane * 0xC2B2AE3D27D4EB4F#64) 31 * 0x9E3779B185EBCA87#64) * 0x9E3779B185EBCA87#64 +
      0x85EBCA77C2B2AE63#64) ∧
  (∀ acc k : Word, tail8 acc k =
    rotl64 (acc ^^^ rotl64 (k * 0xC2B2AE3D27D4EB4F#64) 31 * 0x9E3779B185EBCA87#64) 27 * 0x9E3779B185EBCA87#64 +
      0x85EBCA77C2B2AE63#64) ∧
  (∀ (acc : Word) (k : HalfWord), tail4 acc k =
    rotl64 (acc ^^^ BitVec.ofNat 64 k.toNat * 0x9E3779B185EBCA87#64) 23 * 0xC2B2AE3D27D4EB4F#64 + 0x165667B19E3779F9#64) ∧
  (∀ (acc : Word) (b : Byte), tail1 acc b =
    rotl64 (acc ^^^ BitVec.ofNat 64 b.toNat * 0x27D4EB2F165667C5#64) 11 * 0x9E3779B185EBCA87#64) ∧
  (∀ (s : List Byte) (i j : Nat), j < 4 → (le32 s i).extractLsb' (8 * j) 8 = s.getD (i + j) 0#8) ∧
  (∀ acc a b c : Word, a = acc ^^^ (acc >>> 33) → b = a * 0xC2B2AE3D27D4EB4F#64 →
    c = (b ^^^ (b >>> 29)) * 0x165667B19E3779F9#64 → avalanche acc = c ^^^ (c >>> 32))

/-- CONSUME_BLOCK: lane i depends only on V[i] and on word i-1 of the block (40_datapath.md R123, R133). Derived. -/
def Obligations.LanesAreIndependent : Prop :=
  ∀ (l m : Lanes) (a b : List Byte) (i : Fin 4), a.length = 32 → b.length = 32 →
    laneOf l i = laneOf m i → (∀ j, j < 8 → a[8 * i.val + j]? = b[8 * i.val + j]?) →
    laneOf (consumeBlock l a) i = laneOf (consumeBlock m b) i

/-- TAIL_PROCESS: 8-byte steps while 8 bytes remain, then at most one 4-byte step, then single bytes (R129). -/
def Obligations.TailProcessTakesItsStepsInOrder : Prop :=
  ∀ (acc : Word) (t : List Byte), t.length ≤ 31 →
    (8 ≤ t.length → tailProcess acc t = tailProcess (tail8 acc (le64 t 0)) (t.drop 8)) ∧
    (4 ≤ t.length → t.length < 8 → tailProcess acc t = tailProcess (tail4 acc (le32 t 0)) (t.drop 4)) ∧
    (∀ b rest, t = b :: rest → t.length < 4 → tailProcess acc t = tailProcess (tail1 acc b) rest) ∧
    (t = [] → tailProcess acc t = acc)

/-- FINALIZE_FN by regime: ACC5 or the merged lanes, plus TOTAL, the tail, the avalanche; no lane read in the small, no SEED or ACC5 in
the large one (40_datapath.md R131). Derived. -/
def Obligations.RegimesReadTheirOwnRegisters : Prop :=
  ∀ (h : HashState) (seed acc5 : Word) (l : Lanes),
    (h.large = false → finalizeFn { h with seed := seed, lanes := l } = finalizeFn h) ∧
    (h.large = true → finalizeFn { h with seed := seed, acc5 := acc5 } = finalizeFn h) ∧
    (h.large = false → finalizeFn h = avalanche (tailProcess (h.acc5 + h.total) h.tail)) ∧
    (h.large = true → finalizeFn h = avalanche (tailProcess
      (mergeRound (mergeRound (mergeRound (mergeRound (mergeLanes h.lanes) h.lanes.v1) h.lanes.v2) h.lanes.v3) h.lanes.v4 +
        h.total) h.tail))

/-- ABSORB_BYTE: append and count; the 32nd byte consumes the block, empties the tail and sets LARGE (R170). -/
def Obligations.AbsorbByteConsumesFullBlocks : Prop :=
  ∀ (h : HashState) (b : Byte),
    (h.tail.length < 31 → absorbByte h b = { h with total := h.total + 1#64, tail := h.tail ++ [b] }) ∧
    (h.tail.length = 31 → absorbByte h b =
      { h with
        lanes := consumeBlock h.lanes (h.tail ++ [b])
        total := h.total + 1#64
        large := true
        tail := [] })

/-- CONSUME of written bytes equals its chunk form: whole blocks in order, the remainder the new tail (R171). -/
def Obligations.ConsumeIsItsChunkForm : Prop :=
  ∀ (s : State) (count : BitVec 24) (bs : List Byte), s.hash.tail.length ≤ 31 → bs.length = count.toNat →
    (∀ j, j < bs.length → s.window.read j = bs[j]?) →
    let u := s.hash.tail ++ bs
    let n := u.length / 32
    exec (.consume count) s = .next
      { s with
        hash :=
          { s.hash with
            lanes := (List.range n).foldl (fun l k => consumeBlock l ((u.drop (32 * k)).take 32)) s.hash.lanes
            total := s.hash.total + BitVec.ofNat 64 bs.length
            large := s.hash.large || decide (1 ≤ n)
            tail := u.drop (32 * n) }
        dvalid := false
        pending := none
        delay := 0 }

/-- The streamed hash equals the hash of the whole message, by regime (R186). -/
def Obligations.StreamedHashIsTheWholeMessageHash : Prop :=
  ∀ (seed : Word) (m : List Byte),
    (m.length ≤ 31 → xxh64 seed m =
      avalanche (tailProcess (seed + 0x27D4EB2F165667C5#64 + BitVec.ofNat 64 m.length) m)) ∧
    (32 ≤ m.length → xxh64 seed m =
      avalanche (tailProcess
        (mergeAll ((List.range (m.length / 32)).foldl (fun l k => consumeBlock l ((m.drop (32 * k)).take 32))
          (laneInit seed)) + BitVec.ofNat 64 m.length)
        (m.drop (m.length - m.length % 32))))

/-- Incremental equivalence: however the input is split over CONSUMEs, FINALIZE gives the hash of the whole (R185). -/
def Obligations.DigestOfPiecesIsDigestOfTheWhole : Prop :=
  ∀ (s0 s u : State) (seed : Word) (m : List Byte),
    ((exec .reset s0 = .next s ∧ seed = s0.hash.seed) ∨
      (exec .init s0 = .next s ∧ ∀ j, j < 8 → s0.window.read j = some (seed.extractLsb' (8 * j) 8))) →
    CommandRun s m u →
    ∃ v, exec .finalize u = .next v ∧ v.digest = xxh64 seed m

/-- FINALIZE leaves the hash state, and repeated FINALIZEs give the same DIGEST each time (R181). -/
def Obligations.FinalizeIsNonDestructive : Prop :=
  ∀ s t u : State, exec .finalize s = .next t → CommandRun t [] u →
    t.hash = s.hash ∧ ∃ v, exec .finalize u = .next v ∧ v.digest = t.digest

/-- RESET, and INIT with seed s, bring FINALIZE back to the digest of the empty input (R182). -/
def Obligations.ResetAndInitRestoreTheEmptyDigest : Prop :=
  (∀ s : State, ∃ t u, exec .reset s = .next t ∧ exec .finalize t = .next u ∧ u.digest = xxh64 s.hash.seed []) ∧
  (∀ (s : State) (seed : Word), (∀ j, j < 8 → s.window.read j = some (seed.extractLsb' (8 * j) 8)) →
    ∃ t u, exec .init s = .next t ∧ exec .finalize t = .next u ∧ u.digest = xxh64 seed []) ∧
  (∀ seed : Word, xxh64 seed [] = avalanche (seed + 0x27D4EB2F165667C5#64))

/-- After m bytes since the seeding: SEED, ACC5, TOTAL, LARGE and TAIL_CNT are as the invariant of R28 says (10_state.md R24 to R28).
Derived. -/
def Obligations.AbsorbedBytesAreCounted : Prop :=
  ∀ (seed : Word) (m : List Byte),
    let h := absorbBytes (hashInit seed) m
    h.seed = seed ∧ h.acc5 = seed + 0x27D4EB2F165667C5#64 ∧ h.total = BitVec.ofNat 64 m.length ∧
    (h.large = true ↔ 32 ≤ m.length) ∧ h.tail.length = m.length % 32 ∧ h.tail = m.drop (m.length - m.length % 32)

/-- CONSUME of written bytes depends on the hash state and WINDOW[0..COUNT-1] alone, not on WINDOW_BYTES or stale bytes (00_scope.md R11,
70_reset_and_hazards.md R300). Derived. -/
def Obligations.ConsumeDependsOnlyOnItsOperands : Prop :=
  ∀ (s t : State) (count : BitVec 24), s.hash = t.hash →
    (∀ j, j < count.toNat → ∃ b, s.window.read j = some b ∧ t.window.read j = some b) →
    ∃ s' t', exec (.consume count) s = .next s' ∧ exec (.consume count) t = .next t' ∧ s'.hash = t'.hash

/-- An INIT right after a FINALIZE takes the byte-swapped DIGEST as its seed (70_reset_and_hazards.md R297). Derived. -/
def Obligations.InitAfterFinalizeTakesTheSwappedDigest : Prop :=
  ∀ s t : State, exec .finalize s = .next t →
    ∃ u, exec .init t = .next u ∧
      ∀ j, j < 8 → u.hash.seed.extractLsb' (8 * j) 8 = t.digest.extractLsb' (56 - 8 * j) 8

/-- The invariant holds right after hardware reset (10_state.md R47, R28). Derived. -/
def Obligations.InvariantHoldsAfterReset : Prop :=
  ∀ (windowBytes draws : Nat) (actions : List HostAction), 32 ≤ windowBytes → windowBytes ≤ 16777215 →
    ({ State.reset with windowBytes := windowBytes, host := actions, draws := draws } : State).Inv

/-- Every step keeps the invariant (10_state.md R28, R34, R35, R50). Derived. -/
def Obligations.StepKeepsTheInvariant : Prop :=
  ∀ s s' : State, s.Inv → step s = .next s' → s'.Inv

/-- Every step keeps TOTAL = TAIL_CNT + 32 B modulo 2^64 with LARGE = (B >= 1) and TAIL_CNT <= 31 (10_state.md R28, R27). Derived. -/
def Obligations.StepKeepsTheByteCount : Prop :=
  ∀ s s' : State, s.CountInv → step s = .next s' → s'.CountInv

/-- ACC5 = SEED + PRIME64_5 in every reachable state; only a reseeding writes it, and it decides the small regime (R24). -/
def Obligations.Acc5IsSeedPlusPrime5 : Prop :=
  (∀ s : State, Reachable s → s.hash.acc5 = s.hash.seed + 0x27D4EB2F165667C5#64) ∧
  (∀ seed : Word, (hashInit seed).acc5 = seed + 0x27D4EB2F165667C5#64) ∧
  (∀ s t : State, step s = .next t → t.hash.acc5 ≠ s.hash.acc5 →
    (s.pending = some .init ∧ exec .init s = .next t) ∨ (s.pending = some .reset ∧ exec .reset s = .next t) ∨
    ∃ rest, s.host = .hwReset :: rest ∧ t.hash.acc5 = 0x27D4EB2F165667C5#64) ∧
  (∀ s : State, s.hash.large = false → ∃ t, exec .finalize s = .next t ∧
    t.digest = avalanche (tailProcess (s.hash.acc5 + s.hash.total) s.hash.tail))

/-- DVALID: set by FINALIZE, cleared by INIT, RESET and CONSUME, kept by NOP and CLRERR, cleared by hardware reset; it means DIGEST is
current (R50). -/
def Obligations.DvalidMeansDigestIsCurrent : Prop :=
  ∀ s : State,
    (∃ t, exec .finalize s = .next t ∧ t.dvalid = true) ∧
    (∃ t, exec .init s = .next t ∧ t.dvalid = false) ∧
    (∃ t, exec .reset s = .next t ∧ t.dvalid = false) ∧
    (∀ count, ∃ t, exec (.consume count) s = .next t ∧ t.dvalid = false) ∧
    (∃ t, exec .nop s = .next t ∧ t.dvalid = s.dvalid) ∧
    (∃ t, exec .clrerr s = .next t ∧ t.dvalid = s.dvalid) ∧
    s.hwReset.dvalid = false ∧
    (Reachable s → s.dvalid = true → s.digest = finalizeFn s.hash)

/-- Only INIT, RESET, CONSUME and hardware reset write the hash state, only INIT and hardware reset write SEED (10_state.md R20, R22).
Derived. -/
def Obligations.OnlyReseedsAndConsumeWriteTheHashState : Prop :=
  ∀ s t : State, step s = .next t →
    (t.hash ≠ s.hash →
      (∃ i, s.pending = some i ∧ exec i s = .next t ∧ (i = .init ∨ i = .reset ∨ ∃ count, i = .consume count)) ∨
      (∃ rest, s.host = .hwReset :: rest ∧ t.hash = hashInit 0#64)) ∧
    (t.hash.seed ≠ s.hash.seed →
      (s.pending = some .init ∧ exec .init s = .next t) ∨ ∃ rest, s.host = .hwReset :: rest ∧ t.hash.seed = 0#64)

/-- DIGEST: the completion of FINALIZE writes FINALIZE_FN, hardware reset writes 0, nothing else writes it (R29). -/
def Obligations.OnlyFinalizeAndResetWriteTheDigest : Prop :=
  (∀ s : State, ∃ t, exec .finalize s = .next t ∧ t.digest = finalizeFn s.hash) ∧
  (∀ s : State, s.hwReset.digest = 0#64) ∧
  (∀ s t : State, step s = .next t → t.digest ≠ s.digest →
    (s.pending = some .finalize ∧ exec .finalize s = .next t) ∨ ∃ rest, s.host = .hwReset :: rest ∧ t.digest = 0#64)

/-- A window byte changes only by a host write that covers it, by FINALIZE for bytes 0 to 7, or by hardware reset (20_memory.md R75,
10_state.md R35). Derived. -/
def Obligations.WindowBytesChangeOnlyByWriteFinalizeOrReset : Prop :=
  ∀ (s t : State) (a : Nat), step s = .next t → t.window.read a ≠ s.window.read a →
    (s.pending = some .finalize ∧ exec .finalize s = .next t ∧ a < 8) ∨
    (∃ r rest, s.host = .bus r :: rest ∧ r.we = true ∧ r.addr.toNat ≤ 0x00010000 + a ∧
      0x00010000 + a < r.addr.toNat + r.size.toNat) ∨
    (∃ rest, s.host = .hwReset :: rest ∧ t.window.read a = none)

/-- ERR returns to 0 only by the completion of CLRERR or by hardware reset; it is set only by a refused bus operation (R266). -/
def Obligations.ErrClearsOnlyByClrerrOrReset : Prop :=
  (∀ s t : State, step s = .next t → t.err ≠ s.err →
    (t.err = .noError ∧ ((s.pending = some .clrerr ∧ exec .clrerr s = .next t) ∨ ∃ rest, s.host = .hwReset :: rest)) ∨
    (s.err = .noError ∧ t.rsp = some ⟨0#64, true⟩)) ∧
  (∀ s : State, (∃ t, exec .clrerr s = .next t ∧ t.err = .noError) ∧ s.hwReset.err = .noError) ∧
  (∀ (s t : State) (i : Instr), i ≠ .clrerr → exec i s = .next t → t.err = s.err) ∧
  (∀ (s : State) (v : Word), (busOp ⟨0x00000008#32, true, 4#4, v⟩ s).err = s.err)

/-- WINDOW_BYTES is a parameter: no step changes it (it stands in State by the model's choice, log entry 1) (10_state.md R48, 00_scope.md
R10). Derived. -/
def Obligations.ParameterNeverChanges : Prop :=
  ∀ s t : State, step s = .next t → t.windowBytes = s.windowBytes

/-- While a command is pending, no host action but hardware reset changes it, the window or the hash state (20_memory.md R77,
42_host_bus.md R207, 10_state.md R34). Derived. -/
def Obligations.PendingCommandIsUndisturbed : Prop :=
  ∀ (s : State) (i : Instr) (a : HostAction) (rest : List HostAction), s.pending = some i → s.delay ≠ 0 →
    s.host = a :: rest → a ≠ .hwReset →
    ∃ t, step s = .next t ∧ t.pending = some i ∧ t.window = s.window ∧ t.hash = s.hash ∧ t.digest = s.digest ∧
      t.dvalid = s.dvalid

/-- Every pending command completes, on the window and hash state of its acceptance (finite delay: log entry 4) (41_commands.md R161,
20_memory.md R77). Derived. -/
def Obligations.PendingCommandCompletes : Prop :=
  ∀ (s : State) (i : Instr), s.pending = some i → HostAction.hwReset ∉ s.host →
    ∃ k u t, k ≤ s.delay ∧ runSteps k s = .next u ∧ u.pending = some i ∧ u.hash = s.hash ∧ u.window = s.window ∧
      step u = exec i u ∧ exec i u = .next t ∧ t.pending = none

/-- Hardware reset, in any state and with any command pending, gives every piece of state its reset value (R47, R291). -/
def Obligations.HardwareResetGivesTheResetValues : Prop :=
  ∀ (s : State) (rest : List HostAction), s.host = .hwReset :: rest → s.pending = none ∨ s.delay ≠ 0 →
    ∃ t, step s = .next t ∧
      t.hash.seed = 0#64 ∧
      t.hash.lanes = ⟨0x60EA27EEADC0B5D6#64, 0xC2B2AE3D27D4EB4F#64, 0#64, 0x61C8864E7A143579#64⟩ ∧
      t.hash.acc5 = 0x27D4EB2F165667C5#64 ∧ t.hash.total = 0#64 ∧ t.hash.large = false ∧ t.hash.tail = [] ∧
      t.tailCnt = 0 ∧ t.digest = 0#64 ∧ t.dvalid = false ∧ t.err = .noError ∧ t.busy = false ∧ t.pending = none ∧
      (∀ a, t.window.read a = none) ∧ t.status = 0#32 ∧ t.host = rest

/-- A read of ID, WINSIZE, WINBASE, CMD and of the halves of SEED, TOTAL, DIGEST, ACC5 and V1..V4, BUSY = 0 (R30, R38, R39, R40, R41, R42,
R43). -/
def Obligations.RegisterReadsGiveTheirRegisters : Prop :=
  ∀ (s : State) (d : Word),
    let read : BitVec 32 → State := fun addr => busOp ⟨addr, false, 4#4, d⟩ s
    let answer : HalfWord → State := fun v => { s with rsp := some ⟨v.zeroExtend 64, false⟩ }
    (read 0x00000000#32 = answer 0x58483634#32 ∧
     read 0x0000000C#32 = answer (BitVec.ofNat 32 s.windowBytes) ∧
     read 0x00000010#32 = answer 0x00010000#32) ∧
    (s.pending = none →
      read 0x00000004#32 = answer 0#32 ∧
      read 0x00000018#32 = answer (s.hash.seed.extractLsb' 0 32) ∧
      read 0x0000001C#32 = answer (s.hash.seed.extractLsb' 32 32) ∧
      read 0x00000020#32 = answer (s.hash.total.extractLsb' 0 32) ∧
      read 0x00000024#32 = answer (s.hash.total.extractLsb' 32 32) ∧
      read 0x00000028#32 = answer (s.digest.extractLsb' 0 32) ∧
      read 0x0000002C#32 = answer (s.digest.extractLsb' 32 32) ∧
      read 0x00000030#32 = answer (s.hash.acc5.extractLsb' 0 32) ∧
      read 0x00000034#32 = answer (s.hash.acc5.extractLsb' 32 32) ∧
      read 0x00000040#32 = answer (s.hash.lanes.v1.extractLsb' 0 32) ∧
      read 0x00000044#32 = answer (s.hash.lanes.v1.extractLsb' 32 32) ∧
      read 0x00000048#32 = answer (s.hash.lanes.v2.extractLsb' 0 32) ∧
      read 0x0000004C#32 = answer (s.hash.lanes.v2.extractLsb' 32 32) ∧
      read 0x00000050#32 = answer (s.hash.lanes.v3.extractLsb' 0 32) ∧
      read 0x00000054#32 = answer (s.hash.lanes.v3.extractLsb' 32 32) ∧
      read 0x00000058#32 = answer (s.hash.lanes.v4.extractLsb' 0 32) ∧
      read 0x0000005C#32 = answer (s.hash.lanes.v4.extractLsb' 32 32))

/-- TAILW[k] shows tail bytes 4k to 4k+3 little-endian, zeros from TAIL_CNT on (R44). -/
def Obligations.TailRegistersShowTheTail : Prop :=
  ∀ (s : State) (d : Word) (k : Nat), s.pending = none → k < 8 →
    ∃ v : HalfWord, busOp ⟨BitVec.ofNat 32 (0x060 + 4 * k), false, 4#4, d⟩ s =
        { s with rsp := some ⟨v.zeroExtend 64, false⟩ } ∧
      ∀ j, j < 4 → v.extractLsb' (8 * j) 8 = (if h : 4 * k + j < s.hash.tail.length then s.hash.tail[4 * k + j] else 0#8)

/-- STATUS = BUSY + 2 LARGE + 4 DVALID + 8 TAIL_CNT + 256 ERR, and a read of it with BUSY = 0 gives that (R31). -/
def Obligations.StatusShowsTheFlags : Prop :=
  ∀ (s : State) (d : Word), s.tailCnt ≤ 31 →
    s.status.toNat = (if s.busy then 1 else 0) + 2 * (if s.hash.large then 1 else 0) + 4 * (if s.dvalid then 1 else 0) +
      8 * s.tailCnt + 256 * s.err.code.toNat ∧
    (s.pending = none → busOp ⟨0x00000008#32, false, 4#4, d⟩ s =
      { s with rsp := some ⟨s.status.zeroExtend 64, false⟩ })

/-- Reserved offsets read 0 (while BUSY = 1: log entry 7, DEDUCED); a write to any offset but CMD is ignored, without error (10_state.md
R45, 42_host_bus.md R203). Derived. -/
def Obligations.ReservedAndReadOnlyOffsetsAreHarmless : Prop :=
  ∀ (s : State) (d : Word) (off : Nat), off % 4 = 0 → off < 0x1000 →
    (off = 0x014 ∨ off = 0x038 ∨ off = 0x03C ∨ 0x080 ≤ off →
      busOp ⟨BitVec.ofNat 32 off, false, 4#4, d⟩ s = { s with rsp := some ⟨0#64, false⟩ }) ∧
    (off ≠ 0x004 → busOp ⟨BitVec.ofNat 32 off, true, 4#4, d⟩ s = { s with rsp := some ⟨0#64, false⟩ })

/-- While BUSY = 1 a register read is answered without error, STATUS bit 0, ERR and zeros are defined, and nothing is disturbed
(10_state.md R49, 42_host_bus.md R203, R207). Derived. -/
def Obligations.RegisterReadsWhileBusy : Prop :=
  ∀ (s : State) (d : Word) (off : Nat), s.pending ≠ none → off % 4 = 0 → off < 0x1000 →
    ∃ (v : HalfWord) (n : Nat), busOp ⟨BitVec.ofNat 32 off, false, 4#4, d⟩ s =
        { s with rsp := some ⟨v.zeroExtend 64, false⟩, draws := n } ∧
      (off = 0x008 → v.getLsbD 0 = true ∧ v.extractLsb' 8 4 = s.err.code ∧ v.extractLsb' 12 20 = 0#20)

/-- Unmapped addresses, register accesses not aligned 32-bit, and window accesses misaligned, of a bad width or past the end are bus
errors (R63, R69, R70). -/
def Obligations.BadAccessesAreBusErrors : Prop :=
  ErrCode.bus.code = 5#4 ∧
  ∀ (s : State) (r : BusReq),
    let addr := r.addr.toNat
    let n := r.size.toNat
    let mapped : Nat → Prop := fun a => a < 0x1000 ∨ (0x00010000 ≤ a ∧ a < 0x00010000 + s.windowBytes)
    ((addr < 0x1000 ∧ (n ≠ 4 ∨ addr % 4 ≠ 0)) ∨
     (0x00010000 ≤ addr ∧ addr < 0x00010000 + s.windowBytes ∧
       ((n ≠ 1 ∧ n ≠ 2 ∧ n ≠ 4 ∧ n ≠ 8) ∨ (addr - 0x00010000) % n ≠ 0 ∨ 0x00010000 + s.windowBytes < addr + n)) ∨
     (∃ j, j < n ∧ ¬ mapped (addr + j))) →
    busOp r s = { s with err := if s.err = .noError then .bus else s.err, rsp := some ⟨0#64, true⟩ }

/-- While BUSY = 1 window accesses are refused with WIN_BUSY, CMD writes with CMD_BUSY, and register reads proceed (R207). -/
def Obligations.AccessesWhileBusyAreRefused : Prop :=
  ErrCode.winBusy.code = 6#4 ∧ ErrCode.cmdBusy.code = 4#4 ∧
  ∀ (s : State) (r : BusReq), s.pending ≠ none →
    let addr := r.addr.toNat
    let n := r.size.toNat
    ((n = 1 ∨ n = 2 ∨ n = 4 ∨ n = 8) → 0x00010000 ≤ addr → addr + n ≤ 0x00010000 + s.windowBytes →
      (addr - 0x00010000) % n = 0 → busOp r s =
        { s with err := if s.err = .noError then .winBusy else s.err, rsp := some ⟨0#64, true⟩ }) ∧
    (addr = 0x004 → n = 4 → r.we = true → busOp r s =
        { s with err := if s.err = .noError then .cmdBusy else s.err, rsp := some ⟨0#64, true⟩ }) ∧
    (addr < 0x1000 → n = 4 → addr % 4 = 0 → r.we = false →
      ∃ v d, busOp r s = { s with rsp := some ⟨v, false⟩, draws := d })

/-- Errors are precise and sticky: an operation answered with rsp_err = 1 records the first error and changes nothing else (R262, R263). -/
def Obligations.RefusedOperationsChangeOnlyErr : Prop :=
  ∀ (r : BusReq) (s : State) (data : Word), (busOp r s).rsp = some ⟨data, true⟩ →
    data = 0#64 ∧ ∃ c, c ≠ .noError ∧ busOp r s =
      { s with err := if s.err = .noError then c else s.err, rsp := some ⟨0#64, true⟩ }

/-- Side effects: none of a read, only CMD writes submit a command, only window writes change window bytes (R73). -/
def Obligations.ReadsHaveNoSideEffect : Prop :=
  ∀ (r : BusReq) (s : State),
    let t := busOp r s
    t.hash = s.hash ∧ t.digest = s.digest ∧ t.dvalid = s.dvalid ∧
    (t.err ≠ s.err → t.rsp = some ⟨0#64, true⟩) ∧
    (r.we = false → t.pending = s.pending ∧ t.window = s.window) ∧
    (t.pending ≠ s.pending → r.we = true ∧ r.addr = 0x00000004#32 ∧ t.window = s.window) ∧
    (t.window ≠ s.window → r.we = true ∧ t.pending = s.pending ∧ t.err = s.err) ∧
    (∀ a, t.window.read a ≠ s.window.read a →
      r.addr.toNat ≤ 0x00010000 + a ∧ 0x00010000 + a < r.addr.toNat + r.size.toNat)

/-- A window write stores its bytes little-endian and only those, and the read of the same bytes gives the value back (20_memory.md R64,
42_host_bus.md R204, R205). Derived. -/
def Obligations.WindowWriteThenReadGivesTheValue : Prop :=
  ∀ (s : State) (n i : Nat) (v d : Word), s.pending = none → (n = 1 ∨ n = 2 ∨ n = 4 ∨ n = 8) → i % n = 0 →
    i + n ≤ s.windowBytes → s.windowBytes ≤ 16777215 →
    let addr := BitVec.ofNat 32 (0x00010000 + i)
    let t := busOp ⟨addr, true, BitVec.ofNat 4 n, v⟩ s
    t = { s with window := t.window, rsp := some ⟨0#64, false⟩ } ∧
    (∀ j, j < n → t.window.read (i + j) = some (v.extractLsb' (8 * j) 8)) ∧
    (∀ a, a < i ∨ i + n ≤ a → t.window.read a = s.window.read a) ∧
    busOp ⟨addr, false, BitVec.ofNat 4 n, d⟩ t = { t with rsp := some ⟨BitVec.ofNat 64 (v.toNat % 2 ^ (8 * n)), false⟩ }

/-- A window read gives its bytes little-endian and zero-extended, an unwritten byte being free (20_memory.md R64, R76, 42_host_bus.md
R205). Derived. -/
def Obligations.WindowReadIsLittleEndian : Prop :=
  ∀ (s : State) (n i : Nat) (d : Word), s.pending = none → (n = 1 ∨ n = 2 ∨ n = 4 ∨ n = 8) → i % n = 0 →
    i + n ≤ s.windowBytes → s.windowBytes ≤ 16777215 →
    ∃ (v : Word) (k : Nat), busOp ⟨BitVec.ofNat 32 (0x00010000 + i), false, BitVec.ofNat 4 n, d⟩ s =
        { s with rsp := some ⟨v, false⟩, draws := k } ∧
      v.toNat < 2 ^ (8 * n) ∧ ∀ j b, j < n → s.window.read (i + j) = some b → v.extractLsb' (8 * j) 8 = b

/-- After FINALIZE, the host's 8-byte little-endian read of WINDOW[0..7] gives bswap64 of DIGEST (R67). -/
def Obligations.DigestIsBigEndianInTheWindow : Prop :=
  ∀ (s t : State) (d : Word), 8 ≤ s.windowBytes → exec .finalize s = .next t →
    (∀ j, j < 8 → t.window.read j = some (t.digest.extractLsb' (56 - 8 * j) 8)) ∧
    ∃ x : Word, busOp ⟨0x00010000#32, false, 8#4, d⟩ t = { t with rsp := some ⟨x, false⟩ } ∧
      (∀ j, j < 8 → x.extractLsb' (8 * j) 8 = t.digest.extractLsb' (56 - 8 * j) 8) ∧ x = bswap64 t.digest

/-- DERIVE_SEED: byte k of the seed is the XOR of the material bytes at positions k mod 8; an element outside 0..255, or not an
integer, fails (R230). -/
def Obligations.SeedMaterialIsXorFolded : Prop :=
  (∀ m : List Byte, ∃ x, deriveSeed (m.map fun b => .integer b.toNat) = some x ∧
    ∀ k, k < 8 → x.extractLsb' (8 * k) 8 =
      ((List.range m.length).filter (fun i => i % 8 == k)).foldl (fun a i => a ^^^ m.getD i 0#8) 0#8) ∧
  (∀ (m : List SeedElement) (x : Int), .integer x ∈ m → x < 0 ∨ 255 < x → deriveSeed m = none) ∧
  (∀ m : List SeedElement, .notInteger ∈ m → deriveSeed m = none)

/-- The digest formats: raw (the default) is the window bytes, bigint their little-endian number, hex its 16 lowercase digits (R236). -/
def Obligations.DigestFormatsAgree : Prop :=
  (∀ d : Word,
    rawForm d = (List.range 8).map (fun j => d.extractLsb' (56 - 8 * j) 8) ∧
    bigintForm d < 256 ^ 8 ∧
    (∀ j, j < 8 → bigintForm d / 256 ^ j % 256 = (d.extractLsb' (56 - 8 * j) 8).toNat) ∧
    (hexForm d).length = 16 ∧
    ∀ k, k < 16 → (hexForm d)[k]? =
      ['0', '1', '2', '3', '4', '5', '6', '7', '8', '9', 'a', 'b', 'c', 'd', 'e', 'f'][bigintForm d / 16 ^ (15 - k) % 16]?) ∧
  (∀ (d : Word) (j : Nat) (b : Byte), j < 8 → (rawForm d)[7 - j]? = some b →
    (hexForm d)[2 * j]? = some (hexDigit (b.extractLsb' 4 4)) ∧ (hexForm d)[2 * j + 1]? = some (hexDigit (b.extractLsb' 0 4))) ∧
  (∀ d : Word, render (bswap64 d) .raw = .raw (rawForm d) ∧ render (bswap64 d) .bigint = .bigint (bigintForm d) ∧
    render (bswap64 d) .hex = .hex (String.ofList (hexForm d))) ∧
  formatOf none = some .raw ∧
  (∀ s t : State, exec .finalize s = .next t → ∀ j, j < 8 → t.window.read j = (rawForm t.digest)[j]?)

/-- HOST_HASH, run step by step for any input, WINDOW_BYTES and delays (model's choices: log entries 4 and 18), ends with the digest of
the whole input (45_host_adapter.md R235, R237, R239, R241, 00_scope.md R11, 41_commands.md R161). Derived. -/
def Obligations.HostHashComputesXxh64 : Prop :=
  ∀ (s : State) (data : List Byte) (rest : List HostAction), s.Inv → s.pending = none →
    s.host = hostHash s.windowBytes data ++ rest →
    ∃ k t, runSteps k s = .next t ∧ t.host = rest ∧ t.pending = none ∧ t.hash.seed = s.hash.seed ∧ t.err = s.err ∧
      t.digest = xxh64 s.hash.seed data ∧ t.dvalid = true ∧ t.rsp = some ⟨bswap64 t.digest, false⟩
end

