-- ==== Sys2Proof/Laws/State.lean ====
section
/-! SUPPORT. One lemma per field for each named update of the state, true by `rfl`, so that no later proof unfolds a record update.
The proof is written `(rfl)`: simp then rewrites by the lemma and leaves the kernel no comparison of whole states, which would unfold
64-bit arithmetic on open terms. -/

namespace Sys2Proof.Machine

@[simp] theorem raise_hash (s : State) (c : ErrCode) : (s.raise c).hash = s.hash := (rfl)
@[simp] theorem raise_digest (s : State) (c : ErrCode) : (s.raise c).digest = s.digest := (rfl)
@[simp] theorem raise_dvalid (s : State) (c : ErrCode) : (s.raise c).dvalid = s.dvalid := (rfl)
@[simp] theorem raise_err (s : State) (c : ErrCode) : (s.raise c).err = stickyErr s.err c := (rfl)
@[simp] theorem raise_pending (s : State) (c : ErrCode) : (s.raise c).pending = s.pending := (rfl)
@[simp] theorem raise_window (s : State) (c : ErrCode) : (s.raise c).window = s.window := (rfl)
@[simp] theorem raise_windowBytes (s : State) (c : ErrCode) : (s.raise c).windowBytes = s.windowBytes := (rfl)
@[simp] theorem raise_host (s : State) (c : ErrCode) : (s.raise c).host = s.host := (rfl)
@[simp] theorem raise_rsp (s : State) (c : ErrCode) : (s.raise c).rsp = some ⟨0#64, true⟩ := (rfl)
@[simp] theorem raise_delay (s : State) (c : ErrCode) : (s.raise c).delay = s.delay := (rfl)
@[simp] theorem raise_draws (s : State) (c : ErrCode) : (s.raise c).draws = s.draws := (rfl)

@[simp] theorem respond_hash (s : State) (d : Word) : (s.respond d).hash = s.hash := (rfl)
@[simp] theorem respond_digest (s : State) (d : Word) : (s.respond d).digest = s.digest := (rfl)
@[simp] theorem respond_dvalid (s : State) (d : Word) : (s.respond d).dvalid = s.dvalid := (rfl)
@[simp] theorem respond_err (s : State) (d : Word) : (s.respond d).err = s.err := (rfl)
@[simp] theorem respond_pending (s : State) (d : Word) : (s.respond d).pending = s.pending := (rfl)
@[simp] theorem respond_window (s : State) (d : Word) : (s.respond d).window = s.window := (rfl)
@[simp] theorem respond_windowBytes (s : State) (d : Word) : (s.respond d).windowBytes = s.windowBytes := (rfl)
@[simp] theorem respond_host (s : State) (d : Word) : (s.respond d).host = s.host := (rfl)
@[simp] theorem respond_rsp (s : State) (d : Word) : (s.respond d).rsp = some ⟨d, false⟩ := (rfl)
@[simp] theorem respond_delay (s : State) (d : Word) : (s.respond d).delay = s.delay := (rfl)
@[simp] theorem respond_draws (s : State) (d : Word) : (s.respond d).draws = s.draws := (rfl)

@[simp] theorem complete_hash (s : State) : (s.complete).hash = s.hash := (rfl)
@[simp] theorem complete_digest (s : State) : (s.complete).digest = s.digest := (rfl)
@[simp] theorem complete_dvalid (s : State) : (s.complete).dvalid = s.dvalid := (rfl)
@[simp] theorem complete_err (s : State) : (s.complete).err = s.err := (rfl)
@[simp] theorem complete_pending (s : State) : (s.complete).pending = none := (rfl)
@[simp] theorem complete_window (s : State) : (s.complete).window = s.window := (rfl)
@[simp] theorem complete_windowBytes (s : State) : (s.complete).windowBytes = s.windowBytes := (rfl)
@[simp] theorem complete_host (s : State) : (s.complete).host = s.host := (rfl)
@[simp] theorem complete_rsp (s : State) : (s.complete).rsp = s.rsp := (rfl)
@[simp] theorem complete_delay (s : State) : (s.complete).delay = 0 := (rfl)
@[simp] theorem complete_draws (s : State) : (s.complete).draws = s.draws := (rfl)

@[simp] theorem reseed_hash (s : State) (w : Word) : (s.reseed w).hash = hashInit w := (rfl)
@[simp] theorem reseed_digest (s : State) (w : Word) : (s.reseed w).digest = s.digest := (rfl)
@[simp] theorem reseed_dvalid (s : State) (w : Word) : (s.reseed w).dvalid = false := (rfl)
@[simp] theorem reseed_err (s : State) (w : Word) : (s.reseed w).err = s.err := (rfl)
@[simp] theorem reseed_pending (s : State) (w : Word) : (s.reseed w).pending = s.pending := (rfl)
@[simp] theorem reseed_window (s : State) (w : Word) : (s.reseed w).window = s.window := (rfl)
@[simp] theorem reseed_windowBytes (s : State) (w : Word) : (s.reseed w).windowBytes = s.windowBytes := (rfl)
@[simp] theorem reseed_host (s : State) (w : Word) : (s.reseed w).host = s.host := (rfl)
@[simp] theorem reseed_rsp (s : State) (w : Word) : (s.reseed w).rsp = s.rsp := (rfl)
@[simp] theorem reseed_delay (s : State) (w : Word) : (s.reseed w).delay = s.delay := (rfl)
@[simp] theorem reseed_draws (s : State) (w : Word) : (s.reseed w).draws = s.draws := (rfl)

@[simp] theorem takeAction_hash (s : State) (rest : List HostAction) : (takeAction s rest).hash = s.hash := (rfl)
@[simp] theorem takeAction_digest (s : State) (rest : List HostAction) : (takeAction s rest).digest = s.digest := (rfl)
@[simp] theorem takeAction_dvalid (s : State) (rest : List HostAction) : (takeAction s rest).dvalid = s.dvalid := (rfl)
@[simp] theorem takeAction_err (s : State) (rest : List HostAction) : (takeAction s rest).err = s.err := (rfl)
@[simp] theorem takeAction_pending (s : State) (rest : List HostAction) : (takeAction s rest).pending = s.pending := (rfl)
@[simp] theorem takeAction_window (s : State) (rest : List HostAction) : (takeAction s rest).window = s.window := (rfl)
@[simp] theorem takeAction_windowBytes (s : State) (rest : List HostAction) : (takeAction s rest).windowBytes = s.windowBytes := (rfl)
@[simp] theorem takeAction_host (s : State) (rest : List HostAction) : (takeAction s rest).host = rest := (rfl)
@[simp] theorem takeAction_rsp (s : State) (rest : List HostAction) : (takeAction s rest).rsp = s.rsp := (rfl)
@[simp] theorem takeAction_delay (s : State) (rest : List HostAction) : (takeAction s rest).delay = s.delay - 1 := (rfl)
@[simp] theorem takeAction_draws (s : State) (rest : List HostAction) : (takeAction s rest).draws = s.draws := (rfl)

@[simp] theorem hwReset_hash (s : State) : (s.hwReset).hash = hashInit 0#64 := (rfl)
@[simp] theorem hwReset_digest (s : State) : (s.hwReset).digest = 0#64 := (rfl)
@[simp] theorem hwReset_dvalid (s : State) : (s.hwReset).dvalid = false := (rfl)
@[simp] theorem hwReset_err (s : State) : (s.hwReset).err = .noError := (rfl)
@[simp] theorem hwReset_pending (s : State) : (s.hwReset).pending = none := (rfl)
@[simp] theorem hwReset_window (s : State) : (s.hwReset).window = [] := (rfl)
@[simp] theorem hwReset_windowBytes (s : State) : (s.hwReset).windowBytes = s.windowBytes := (rfl)
@[simp] theorem hwReset_host (s : State) : (s.hwReset).host = s.host := (rfl)
@[simp] theorem hwReset_rsp (s : State) : (s.hwReset).rsp = none := (rfl)
@[simp] theorem hwReset_delay (s : State) : (s.hwReset).delay = 0 := (rfl)
@[simp] theorem hwReset_draws (s : State) : (s.hwReset).draws = s.draws := (rfl)

@[simp] theorem busy_eq (s : State) : s.busy = s.pending.isSome := rfl

@[simp] theorem tailCnt_eq (s : State) : s.tailCnt = s.hash.tail.length := (rfl)

theorem not_busy_iff (s : State) : s.busy = false ↔ s.pending = none := by
  simp [State.busy]

theorem busy_iff (s : State) : s.busy = true ↔ ∃ i, s.pending = some i := by
  simp [State.busy, Option.isSome_iff_exists]

end Sys2Proof.Machine
end

