-- ==== Sys2Proof/Laws/Ops.lean ====
section
/-! SUPPORT. The laws of the window's operations: read after write, what a write leaves alone, the canonical form kept, and everything a
byte read can do. -/

namespace Sys2Proof.Machine

/-! ## One byte -/

theorem read_write_same (m : Memory) (i : Nat) (b : Byte) : (m.write i b).read i = some b := by
  induction m with
  | nil => simp [Memory.write, Memory.read]
  | cons p rest ih =>
    unfold Memory.write
    split_ifs with h1 h2
    · simp [Memory.read]
    · simp [Memory.read]
    · have : p.1 ≠ i := fun h => h2 h.symm
      simp [Memory.read, this, ih]

theorem read_write_other (m : Memory) (i j : Nat) (b : Byte) (h : j ≠ i) : (m.write i b).read j = m.read j := by
  induction m with
  | nil => simp [Memory.write, Memory.read, h.symm]
  | cons p rest ih =>
    unfold Memory.write
    split_ifs with h1 h2
    · simp [Memory.read, h.symm]
    · have : p.1 ≠ j := fun h3 => h (h3.symm.trans h2.symm)
      simp [Memory.read, h.symm, this]
    · simp [Memory.read, ih]

theorem read_write (m : Memory) (i j : Nat) (b : Byte) :
    (m.write i b).read j = if j = i then some b else m.read j := by
  split_ifs with h
  · subst h; exact read_write_same m j b
  · exact read_write_other m i j b h

/-! ## The canonical form -/

theorem wf_nil : Memory.wf [] = true := rfl

theorem wf_cons_iff (p : Host.Cell) (m : Memory) :
    Memory.wf (p :: m) = true ↔ (∀ q ∈ m.head?, p.1 < q.1) ∧ m.wf = true := by
  cases m with
  | nil => simp [Memory.wf]
  | cons q rest => simp [Memory.wf]

theorem head_write (m : Memory) (i : Nat) (b : Byte) (q : Host.Cell) (hq : q ∈ (m.write i b).head?) :
    q.1 = i ∨ q ∈ m.head? := by
  cases m with
  | nil => simp only [Memory.write, List.head?_cons, Option.mem_some_iff] at hq; subst hq; exact .inl rfl
  | cons p rest =>
    unfold Memory.write at hq
    split_ifs at hq with h1 h2 <;> simp only [List.head?_cons, Option.mem_some_iff] at hq <;> subst hq
    · exact .inl rfl
    · exact .inl rfl
    · exact .inr (by simp)

/-- A byte write keeps the canonical form. -/
theorem write_wf (m : Memory) (i : Nat) (b : Byte) (h : m.wf = true) : (m.write i b).wf = true := by
  induction m with
  | nil => rfl
  | cons p rest ih =>
    obtain ⟨hp, hrest⟩ := (wf_cons_iff p rest).1 h
    unfold Memory.write
    split_ifs with h1 h2
    · exact (wf_cons_iff _ _).2 ⟨by simpa using h1, h⟩
    · subst h2; exact (wf_cons_iff _ _).2 ⟨hp, hrest⟩
    · refine (wf_cons_iff _ _).2 ⟨fun q hq => ?_, ih hrest⟩
      rcases head_write rest i b q hq with h3 | h3
      · omega
      · exact hp q h3

theorem mem_write (m : Memory) (i : Nat) (b : Byte) (c : Host.Cell) (hc : c ∈ m.write i b) : c.1 = i ∨ c ∈ m := by
  induction m with
  | nil => simp only [Memory.write, List.mem_singleton] at hc; subst hc; exact .inl rfl
  | cons p rest ih =>
    unfold Memory.write at hc
    split_ifs at hc with h1 h2
    · rcases List.mem_cons.1 hc with h3 | h3
      · subst h3; exact .inl rfl
      · exact .inr h3
    · rcases List.mem_cons.1 hc with h3 | h3
      · subst h3; exact .inl rfl
      · exact .inr (List.mem_cons_of_mem _ h3)
    · rcases List.mem_cons.1 hc with h3 | h3
      · exact .inr (h3 ▸ List.mem_cons_self)
      · rcases ih h3 with h4 | h4
        · exact .inl h4
        · exact .inr (List.mem_cons_of_mem _ h4)

theorem wf_lt (p : Host.Cell) (m : Memory) (h : Memory.wf (p :: m) = true) : ∀ q ∈ m, p.1 < q.1 := by
  induction m generalizing p with
  | nil => simp
  | cons q rest ih =>
    obtain ⟨h1, h2⟩ := (wf_cons_iff p _).1 h
    have hpq : p.1 < q.1 := h1 q (by simp)
    intro r hr
    rcases List.mem_cons.1 hr with h3 | h3
    · exact h3 ▸ hpq
    · exact hpq.trans (ih q h2 r h3)

/-- An index below the first entry of a canonical memory is unwritten. -/
theorem read_below (m : Memory) (i : Nat) (h : ∀ q ∈ m, i < q.1) : m.read i = none := by
  induction m with
  | nil => rfl
  | cons p rest ih =>
    have h1 : p.1 ≠ i := by have := h p List.mem_cons_self; omega
    simp [Memory.read, h1, ih fun q hq => h q (List.mem_cons_of_mem _ hq)]

/-- Canonical memories that read alike are equal data. -/
theorem memory_ext (m n : Memory) (hm : m.wf = true) (hn : n.wf = true) (h : ∀ i, m.read i = n.read i) : m = n := by
  induction m generalizing n with
  | nil =>
    cases n with
    | nil => rfl
    | cons q ns => have := h q.1; simp [Memory.read] at this
  | cons p ms ih =>
    cases n with
    | nil => have := h p.1; simp [Memory.read] at this
    | cons q ns =>
      have hp := wf_lt p ms hm
      have hq := wf_lt q ns hn
      have hpq : p.1 = q.1 := by
        rcases Nat.lt_trichotomy p.1 q.1 with h1 | h1 | h1
        · have h2 : Memory.read (q :: ns) p.1 = none := read_below _ _ fun r hr => by
            rcases List.mem_cons.1 hr with h3 | h3
            · exact h3 ▸ h1
            · exact h1.trans (hq r h3)
          have h3 := h p.1
          rw [h2] at h3; simp [Memory.read] at h3
        · exact h1
        · have h2 : Memory.read (p :: ms) q.1 = none := read_below _ _ fun r hr => by
            rcases List.mem_cons.1 hr with h3 | h3
            · exact h3 ▸ h1
            · exact h1.trans (hp r h3)
          have h3 := h q.1
          rw [h2] at h3; simp [Memory.read] at h3
      have hval : p.2 = q.2 := by have := h p.1; simpa [Memory.read, hpq] using this
      have hrest : ms = ns := by
        refine ih ns ((wf_cons_iff _ _).1 hm).2 ((wf_cons_iff _ _).1 hn).2 fun i => ?_
        by_cases hi : i = p.1
        · subst hi
          rw [read_below ms _ hp, read_below ns _ (fun r hr => hpq ▸ hq r hr)]
        · have hp' : p.1 ≠ i := Ne.symm hi
          have hq' : q.1 ≠ i := hpq ▸ hp'
          simpa [Memory.read, hp', hq'] using h i
      rw [hrest, Prod.ext hpq hval]

/-! ## Byte sequences -/

theorem writeBytes_wf (m : Memory) (i : Nat) (bs : List Byte) (h : m.wf = true) : (m.writeBytes i bs).wf = true := by
  induction bs generalizing m i with
  | nil => exact h
  | cons b bs ih => exact ih _ _ (write_wf m i b h)

theorem mem_writeBytes (m : Memory) (i : Nat) (bs : List Byte) (c : Host.Cell) (hc : c ∈ m.writeBytes i bs) :
    (i ≤ c.1 ∧ c.1 < i + bs.length) ∨ c ∈ m := by
  induction bs generalizing m i with
  | nil => exact .inr hc
  | cons b bs ih =>
    rcases ih _ _ hc with h | h
    · left; simp only [List.length_cons]; omega
    · rcases mem_write m i b c h with h | h
      · left; simp only [List.length_cons]; omega
      · exact .inr h

/-- What a byte sequence written at i leaves at j: its own byte inside, the old byte outside. -/
theorem read_writeBytes (m : Memory) (i : Nat) (bs : List Byte) (j : Nat) :
    (m.writeBytes i bs).read j = if i ≤ j ∧ j < i + bs.length then bs[j - i]? else m.read j := by
  induction bs generalizing m i with
  | nil => rw [if_neg (by simp)]; rfl
  | cons b bs ih =>
    simp only [Memory.writeBytes, ih, read_write, List.length_cons]
    by_cases h : j = i
    · subst h
      rw [if_neg (by omega), if_pos rfl, if_pos (by omega)]; simp
    · by_cases h1 : i + 1 ≤ j ∧ j < i + 1 + bs.length
      · rw [if_pos h1, if_pos (by omega)]
        obtain ⟨k, rfl⟩ : ∃ k, j = i + 1 + k := ⟨j - (i + 1), by omega⟩
        have e1 : i + 1 + k - (i + 1) = k := by omega
        have e2 : i + 1 + k - i = k + 1 := by omega
        rw [e1, e2, List.getElem?_cons_succ]
      · rw [if_neg h1, if_neg h, if_neg (by omega)]

/-! ## Reads that may draw -/

/-- Everything a byte read can do: it gives the written byte, or any byte, and changes nothing but the count of draws. -/
theorem readByte_spec (s : State) (i : Nat) :
    (∀ b, s.window.read i = some b → s.readByte i = (b, s)) ∧
      ∃ n, (s.readByte i).2 = { s with draws := n } := by
  unfold State.readByte
  cases h : s.window.read i with
  | none => exact ⟨by simp, _, rfl⟩
  | some b => exact ⟨by simp, s.draws, rfl⟩

/-- Everything a byte sequence read can do. -/
theorem readBytes_spec (s : State) (i n : Nat) :
    (s.readBytes i n).1.length = n ∧
      (∀ j b, j < n → s.window.read (i + j) = some b → (s.readBytes i n).1[j]? = some b) ∧
      ∃ d, (s.readBytes i n).2 = { s with draws := d } := by
  induction n generalizing s i with
  | zero => exact ⟨rfl, by simp, s.draws, rfl⟩
  | succ n ih =>
    obtain ⟨h1, d, h2⟩ := readByte_spec s i
    obtain ⟨l, hr, d', h3⟩ := ih (s.readByte i).2 (i + 1)
    have hw : (s.readByte i).2.window = s.window := by rw [h2]
    refine ⟨by simp [State.readBytes, l], fun j b hj hb => ?_, d', ?_⟩
    · cases j with
      | zero => simp [State.readBytes, h1 b (by simpa using hb)]
      | succ j =>
        have := hr j b (by omega) (by rw [hw, show i + 1 + j = i + (j + 1) by omega]; exact hb)
        simpa [State.readBytes] using this
    · simp only [State.readBytes]
      rw [h3, h2]

/-- A read of written bytes gives them and takes no draw. -/
theorem readBytes_written (s : State) (i : Nat) (bs : List Byte)
    (h : ∀ j, j < bs.length → s.window.read (i + j) = bs[j]?) : s.readBytes i bs.length = (bs, s) := by
  induction bs generalizing s i with
  | nil => rfl
  | cons b bs ih =>
    have h0 : s.window.read i = some b := by simpa using h 0 (by simp)
    have h1 : s.readByte i = (b, s) := (readByte_spec s i).1 b h0
    have h2 := ih s (i + 1) fun j hj => by
      have := h (j + 1) (by simpa using hj)
      simpa [show i + 1 + j = i + (j + 1) by omega] using this
    simp [State.readBytes, h1, h2]

end Sys2Proof.Machine
end

