-- ==== Sys2Proof/Laws/Datapath.lean ====
section
/-! SUPPORT. The fields of the freshly-seeded hash state (R122), and byte sequences as numbers (R15): bounds, single bytes, and the words
read from them. -/

namespace Sys2Proof.Machine

@[simp] theorem hashInit_large (w : Word) : (hashInit w).large = false := (rfl)
@[simp] theorem hashInit_tail (w : Word) : (hashInit w).tail = [] := (rfl)
@[simp] theorem hashInit_total (w : Word) : (hashInit w).total = 0#64 := (rfl)
@[simp] theorem hashInit_seed (w : Word) : (hashInit w).seed = w := (rfl)
@[simp] theorem hashInit_acc5 (w : Word) : (hashInit w).acc5 = w + prime5 := (rfl)
@[simp] theorem hashInit_lanes (w : Word) : (hashInit w).lanes = laneInit w := (rfl)

@[simp] theorem leNat_nil : leNat [] = 0 := rfl

@[simp] theorem leNat_cons (b : Byte) (bs : List Byte) : leNat (b :: bs) = b.toNat + 256 * leNat bs := rfl

theorem leNat_lt (bs : List Byte) : leNat bs < 256 ^ bs.length := by
  induction bs with
  | nil => simp
  | cons b bs ih =>
    have hb := b.isLt
    simp only [leNat_cons, List.length_cons, pow_succ]
    omega

/-- Byte j of the number is byte j of the sequence, and 0 past its end. -/
theorem leNat_byte (bs : List Byte) (j : Nat) : leNat bs / 256 ^ j % 256 = (bs.getD j 0#8).toNat := by
  induction bs generalizing j with
  | nil => simp
  | cons b bs ih =>
    have hb := b.isLt
    cases j with
    | zero => simp; omega
    | succ j =>
      have h1 : (b.toNat + 256 * leNat bs) / 256 = leNat bs := by omega
      rw [leNat_cons, pow_succ, mul_comm (256 ^ j) 256, ← Nat.div_div_eq_div_mul, h1, ih]
      simp

theorem pow256 (j : Nat) : 256 ^ j = 2 ^ (8 * j) := by
  rw [pow_mul]; norm_num

/-- Byte j of a word made of a byte sequence, for any width that holds the byte. -/
theorem extract_ofNat_leNat (w : Nat) (bs : List Byte) (j : Nat) (h : 8 * j + 8 ≤ w) :
    (BitVec.ofNat w (leNat bs)).extractLsb' (8 * j) 8 = bs.getD j 0#8 := by
  apply BitVec.eq_of_toNat_eq
  rw [← leNat_byte, pow256]
  simp only [BitVec.extractLsb'_toNat, BitVec.toNat_ofNat, Nat.shiftRight_eq_div_pow]
  have hw : 2 ^ w = 2 ^ (8 * j) * 2 ^ (w - 8 * j) := by rw [← pow_add]; congr 1; omega
  have h8 : (2 : Nat) ^ 8 ∣ 2 ^ (w - 8 * j) := pow_dvd_pow 2 (by omega)
  rw [hw, Nat.mod_mul_right_div_self, Nat.mod_mod_of_dvd _ h8]; norm_num

/-- Two 64-bit words are equal when their eight bytes are. -/
theorem word_ext_bytes (x y : Word) (h : ∀ j, j < 8 → x.extractLsb' (8 * j) 8 = y.extractLsb' (8 * j) 8) : x = y := by
  apply BitVec.eq_of_getLsbD_eq
  intro i hi
  have h1 := congrArg (fun b : BitVec 8 => b.getLsbD (i % 8)) (h (i / 8) (by omega))
  simp only [BitVec.getLsbD_extractLsb'] at h1
  have h2 : i % 8 < 8 := Nat.mod_lt _ (by decide)
  simpa [h2, Nat.div_add_mod] using h1

/-- Byte j of `le64`. -/
theorem le64_byte (s : List Byte) (i j : Nat) (h : j < 8) :
    (le64 s i).extractLsb' (8 * j) 8 = s.getD (i + j) 0#8 := by
  unfold le64
  rw [extract_ofNat_leNat 64 _ j (by omega)]
  simp [List.getD_eq_getElem?_getD, h]

/-- Byte j of `bswap64` is byte 7-j. -/
theorem bswap64_byte (x : Word) (j : Nat) (h : j < 8) :
    (bswap64 x).extractLsb' (8 * j) 8 = x.extractLsb' (56 - 8 * j) 8 := by
  rw [bswap64, le64_byte _ _ _ h]
  rcases (by omega : j = 0 ∨ j = 1 ∨ j = 2 ∨ j = 3 ∨ j = 4 ∨ j = 5 ∨ j = 6 ∨ j = 7) with
    rfl | rfl | rfl | rfl | rfl | rfl | rfl | rfl <;> rfl

@[simp] theorem beBytes64_length (x : Word) : (beBytes64 x).length = 8 := rfl

@[simp] theorem leBytes_length (n : Nat) (x : Word) : (leBytes n x).length = n := by simp [leBytes]

theorem leBytes_get (n : Nat) (x : Word) (j : Nat) (h : j < n) :
    (leBytes n x)[j]? = some (x.extractLsb' (8 * j) 8) := by
  simp [leBytes, h]

/-- Byte j of `be_bytes64`. -/
theorem beBytes64_get (x : Word) (j : Nat) (h : j < 8) : (beBytes64 x)[j]? = some (x.extractLsb' (56 - 8 * j) 8) := by
  rcases (by omega : j = 0 ∨ j = 1 ∨ j = 2 ∨ j = 3 ∨ j = 4 ∨ j = 5 ∨ j = 6 ∨ j = 7) with
    rfl | rfl | rfl | rfl | rfl | rfl | rfl | rfl <;> rfl

/-- Two bit vectors side by side, as a number. -/
theorem append_toNat {n m : Nat} (x : BitVec n) (y : BitVec m) : (x ++ y).toNat = x.toNat * 2 ^ m + y.toNat := by
  rw [BitVec.toNat_append, ← Nat.shiftLeft_add_eq_or_of_lt y.isLt, Nat.shiftLeft_eq]

/-- The n low bytes of a word, as a number. -/
theorem leNat_leBytes (n : Nat) (v : Word) : leNat (leBytes n v) = v.toNat % 2 ^ (8 * n) := by
  induction n generalizing v with
  | zero => simp [leBytes]; omega
  | succ n ih =>
    have e : leBytes (n + 1) v = v.extractLsb' 0 8 :: leBytes n (v >>> 8) := by
      unfold leBytes
      rw [List.range_succ_eq_map, List.map_cons, List.map_map]
      congr 1
      apply List.map_congr_left
      intro j _
      apply BitVec.eq_of_toNat_eq
      simp only [Function.comp, BitVec.extractLsb'_toNat, BitVec.toNat_ushiftRight, ← Nat.shiftRight_add]
      congr 2; omega
    rw [e, leNat_cons, ih]
    simp only [BitVec.extractLsb'_toNat, BitVec.toNat_ushiftRight, Nat.shiftRight_eq_div_pow]
    rw [show 8 * (n + 1) = 8 + 8 * n by omega, pow_add, Nat.mod_mul]; simp

/-- Swapping the bytes twice gives the word back. -/
@[simp] theorem bswap64_bswap64 (x : Word) : bswap64 (bswap64 x) = x := by
  apply word_ext_bytes
  intro j hj
  have h := bswap64_byte x (7 - j) (by omega)
  rw [bswap64_byte _ _ hj, show 56 - 8 * j = 8 * (7 - j) by omega, h, show 56 - 8 * (7 - j) = 8 * j by omega]

end Sys2Proof.Machine
end

