-- ==== Sys2Proof/Laws/Stream.lean ====
section
/-! SUPPORT. Everything ABSORB_BYTE can do (R170), and the absorption of byte sequences. -/

namespace Sys2Proof.Machine

/-- The two cases of ABSORB_BYTE. -/
theorem absorbByte_cases (h : HashState) (b : Byte) :
    (h.tail.length + 1 ≠ 32 ∧ absorbByte h b = { h with total := h.total + 1#64, tail := h.tail ++ [b] }) ∨
    (h.tail.length + 1 = 32 ∧ absorbByte h b =
      { h with lanes := consumeBlock h.lanes (h.tail ++ [b]), total := h.total + 1#64, large := true, tail := [] }) := by
  by_cases hl : h.tail.length + 1 = 32
  · right; refine ⟨hl, ?_⟩; simp [absorbByte, hl]
  · left; refine ⟨hl, ?_⟩; simp [absorbByte, hl]

@[simp] theorem absorbByte_seed (h : HashState) (b : Byte) : (absorbByte h b).seed = h.seed := by
  rcases absorbByte_cases h b with ⟨-, e⟩ | ⟨-, e⟩ <;> rw [e]

@[simp] theorem absorbByte_acc5 (h : HashState) (b : Byte) : (absorbByte h b).acc5 = h.acc5 := by
  rcases absorbByte_cases h b with ⟨-, e⟩ | ⟨-, e⟩ <;> rw [e]

@[simp] theorem absorbByte_total (h : HashState) (b : Byte) : (absorbByte h b).total = h.total + 1#64 := by
  rcases absorbByte_cases h b with ⟨-, e⟩ | ⟨-, e⟩ <;> rw [e]

theorem absorbByte_tail_bound (h : HashState) (b : Byte) (hl : h.tail.length ≤ 31) :
    (absorbByte h b).tail.length ≤ 31 := by
  rcases absorbByte_cases h b with ⟨h1, e⟩ | ⟨h1, e⟩ <;> rw [e] <;> simp; omega

@[simp] theorem absorbBytes_nil (h : HashState) : absorbBytes h [] = h := rfl

@[simp] theorem absorbBytes_cons (h : HashState) (b : Byte) (bs : List Byte) :
    absorbBytes h (b :: bs) = absorbBytes (absorbByte h b) bs := rfl

/-- Absorption in pieces is absorption of the whole. -/
theorem absorbBytes_append (h : HashState) (a b : List Byte) :
    absorbBytes h (a ++ b) = absorbBytes (absorbBytes h a) b := by
  simp [absorbBytes, List.foldl_append]

@[simp] theorem absorbBytes_seed (h : HashState) (bs : List Byte) : (absorbBytes h bs).seed = h.seed := by
  induction bs generalizing h with
  | nil => rfl
  | cons b bs ih => simp [ih]

@[simp] theorem absorbBytes_acc5 (h : HashState) (bs : List Byte) : (absorbBytes h bs).acc5 = h.acc5 := by
  induction bs generalizing h with
  | nil => rfl
  | cons b bs ih => simp [ih]

theorem absorbBytes_tail_bound (h : HashState) (bs : List Byte) (hl : h.tail.length ≤ 31) :
    (absorbBytes h bs).tail.length ≤ 31 := by
  induction bs generalizing h with
  | nil => exact hl
  | cons b bs ih => exact ih _ (absorbByte_tail_bound h b hl)

/-- Bytes that do not fill the tail are appended to it. -/
theorem absorbBytes_short (h : HashState) (bs : List Byte) (hl : h.tail.length + bs.length ≤ 31) :
    absorbBytes h bs = { h with total := h.total + BitVec.ofNat 64 bs.length, tail := h.tail ++ bs } := by
  induction bs generalizing h with
  | nil => simp
  | cons b bs ih =>
    simp only [List.length_cons] at hl
    rcases absorbByte_cases h b with ⟨-, e⟩ | ⟨h1, -⟩
    · rw [absorbBytes_cons, e, ih _ (by simp; omega)]
      have : BitVec.ofNat 64 (b :: bs).length = 1#64 + BitVec.ofNat 64 bs.length := by
        simp only [List.length_cons, BitVec.ofNat_add]; exact BitVec.add_comm _ _
      simp only [List.append_assoc, List.cons_append, List.nil_append, this, BitVec.add_assoc]
    · omega

/-- Bytes that exactly fill the tail are consumed with it as one block. -/
theorem absorbBytes_fill (h : HashState) (bs : List Byte) (hl : h.tail.length + bs.length = 32) (hne : bs ≠ []) :
    absorbBytes h bs =
      { h with lanes := consumeBlock h.lanes (h.tail ++ bs), total := h.total + BitVec.ofNat 64 bs.length, large := true,
               tail := [] } := by
  obtain ⟨front, last, rfl⟩ := bs.eq_nil_or_concat.resolve_left hne
  simp only [List.concat_eq_append, List.length_append, List.length_singleton] at hl
  rw [List.concat_eq_append, absorbBytes_append, absorbBytes_short h front (by omega), absorbBytes_cons, absorbBytes_nil]
  rcases absorbByte_cases { h with total := h.total + BitVec.ofNat 64 front.length, tail := h.tail ++ front } last with
    ⟨h1, -⟩ | ⟨-, e⟩
  · exact absurd (by simp; omega) h1
  · rw [e]
    simp only [List.append_assoc, List.length_append, List.length_singleton, BitVec.ofNat_add, BitVec.add_assoc]

end Sys2Proof.Machine
end

