-- ==== Sys2Proof/Laws/Commands.lean ====
section
/-! SUPPORT. Everything each meaning can do, and what every completion has in common (R161). -/

namespace Sys2Proof.Machine

/-- INIT: the seed its operand gives, nothing drawn but bytes. -/
theorem execInit_spec (s : State) : ∃ bs d, bs.length = 8 ∧
    (∀ j b, j < 8 → s.window.read j = some b → bs[j]? = some b) ∧
    execInit s = .next { s with hash := hashInit (le64 bs 0), dvalid := false, pending := none, delay := 0, draws := d } := by
  obtain ⟨hl, hr, d, hd⟩ := readBytes_spec s 0 8
  refine ⟨_, d, hl, fun j b hj hb => hr j b hj (by simpa using hb), ?_⟩
  simp only [execInit, State.seedOperand, State.reseed, State.complete, hd]

/-- CONSUME: the bytes its operand gives, nothing drawn but bytes. -/
theorem execConsume_spec (count : BitVec 24) (s : State) : ∃ bs d, bs.length = count.toNat ∧
    (∀ j b, j < count.toNat → s.window.read j = some b → bs[j]? = some b) ∧
    execConsume count s =
      .next { s with hash := absorbBytes s.hash bs, dvalid := false, pending := none, delay := 0, draws := d } := by
  obtain ⟨hl, hr, d, hd⟩ := readBytes_spec s 0 count.toNat
  refine ⟨_, d, hl, fun j b hj hb => hr j b hj (by simpa using hb), ?_⟩
  simp only [execConsume, State.streamOperand, State.complete, hd]

/-- CONSUME of written bytes. -/
theorem execConsume_written (count : BitVec 24) (s : State) (bs : List Byte) (hl : bs.length = count.toNat)
    (hr : ∀ j, j < bs.length → s.window.read j = bs[j]?) :
    execConsume count s =
      .next { s with hash := absorbBytes s.hash bs, dvalid := false, pending := none, delay := 0 } := by
  have h := readBytes_written s 0 bs (by simpa using hr)
  simp only [execConsume, State.streamOperand, State.complete, ← hl, h]

/-- FINALIZE in the shape of the others. -/
theorem execFinalize_spec (s : State) : execFinalize s =
    .next { s with digest := finalizeFn s.hash, window := storeDigest s.window (finalizeFn s.hash), dvalid := true,
                   pending := none, delay := 0 } := rfl

/-- What every completion has in common. -/
theorem exec_common (i : Instr) (s : State) : ∃ t, exec i s = .next t ∧ t.pending = none ∧ t.delay = 0 ∧
    t.windowBytes = s.windowBytes ∧ t.host = s.host ∧ t.rsp = s.rsp := by
  cases i with
  | nop => exact ⟨_, rfl, by simp⟩
  | init =>
    obtain ⟨bs, d, -, -, h⟩ := execInit_spec s
    exact ⟨_, h, by simp⟩
  | reset => exact ⟨_, rfl, by simp⟩
  | consume count =>
    obtain ⟨bs, d, -, -, h⟩ := execConsume_spec count s
    exact ⟨_, h, by simp⟩
  | finalize => exact ⟨_, rfl, by simp⟩
  | clrerr => exact ⟨_, rfl, by simp⟩

/-- What FINALIZE leaves in each window byte. -/
theorem read_storeDigest (m : Memory) (d : Word) (j : Nat) :
    (storeDigest m d).read j = if j < 8 then (beBytes64 d)[j]? else m.read j := by
  simp [storeDigest, read_writeBytes]

end Sys2Proof.Machine
end

