-- ==== Sys2Proof/Laws/Bus.lean ====
section
/-! SUPPORT. Everything a bus operation can do (R201), said once. -/

namespace Sys2Proof.Machine

/-- Everything a register read can do: any value, nothing changed but the count of draws. -/
theorem readReg_spec (s : State) (off : Nat) : ∃ d, (s.readReg off).2 = { s with draws := d } := by
  unfold State.readReg
  split
  · exact ⟨s.draws, rfl⟩
  · split
    · split
      · exact ⟨_, rfl⟩
      · exact ⟨s.draws, rfl⟩
    · exact ⟨s.draws, rfl⟩

/-- Everything a window read can do. -/
theorem loadWindow_spec (s : State) (i n : Nat) : ∃ d, (s.loadWindow i n).2 = { s with draws := d } :=
  (readBytes_spec s i n).2.2

theorem errOfReject_ne (c : Reject) : errOfReject c ≠ .noError := by cases c <;> simp [errOfReject]

/-- Everything command acceptance can do (R160). -/
theorem accept_cases (w : HalfWord) (s : State) :
    (∃ c, c ≠ .noError ∧ accept w s = s.raise c) ∨
    (s.busy = false ∧ ∃ i, decode s.windowBytes w = .ok i ∧ accept w s =
      { s with pending := some i, delay := Config.completionDelay s.draws, draws := s.draws + 1 }.respond 0#64) := by
  unfold accept
  by_cases hb : s.busy = true
  · rw [if_pos hb]; exact .inl ⟨.cmdBusy, by decide, rfl⟩
  · rw [if_neg hb]
    cases h : decode s.windowBytes w with
    | error c => exact .inl ⟨_, errOfReject_ne c, rfl⟩
    | ok i => exact .inr ⟨by simpa using hb, i, rfl, rfl⟩

theorem inRegRegion_iff (addr : Nat) : inRegRegion addr = true ↔ addr < 0x1000 := by
  simp [inRegRegion, regBase, regSize]

theorem inWindow_iff (windowBytes addr n : Nat) : inWindow windowBytes addr n = true ↔
    legalWidth n = true ∧ winBase ≤ addr ∧ addr + n ≤ winBase + windowBytes := by
  simp [inWindow, and_assoc]

/-- Everything an access to the register region can do. -/
theorem regOp_cases (r : BusReq) (s : State) :
    (∃ c, c ≠ .noError ∧ regOp r s = s.raise c) ∨
    (∃ v d, regOp r s = { s with draws := d }.respond v) ∨
    (r.we = true ∧ s.busy = false ∧ ∃ i, decode s.windowBytes (r.wdata.extractLsb' 0 32) = .ok i ∧ regOp r s =
      { s with pending := some i, delay := Config.completionDelay s.draws, draws := s.draws + 1 }.respond 0#64) := by
  unfold regOp
  by_cases h1 : r.size.toNat ≠ 4 ∨ r.addr.toNat % 4 ≠ 0
  · rw [if_pos h1]; exact .inl ⟨.bus, by decide, rfl⟩
  · rw [if_neg h1]
    by_cases h2 : r.we = true
    · rw [if_pos h2]
      unfold regWrite32
      by_cases h3 : r.addr.toNat - regBase = regOffset .cmd
      · rw [if_pos h3]
        exact (accept_cases (r.wdata.extractLsb' 0 32) s).imp_right fun h => .inr ⟨h2, h.1, h.2⟩
      · rw [if_neg h3]; exact .inr (.inl ⟨0#64, s.draws, rfl⟩)
    · rw [if_neg h2]
      obtain ⟨d, hd⟩ := readReg_spec s (r.addr.toNat - regBase)
      exact .inr (.inl ⟨_, d, by unfold regRead32; rw [hd]⟩)

/-- Everything an access to the window region can do. -/
theorem winOp_cases (r : BusReq) (s : State) :
    (∃ c, c ≠ .noError ∧ winOp r s = s.raise c) ∨
    (∃ v d, winOp r s = { s with draws := d }.respond v) ∨
    (r.we = true ∧ s.busy = false ∧ winOp r s =
      { s with window := storeWindow s.window (r.addr.toNat - winBase) r.size.toNat r.wdata }.respond 0#64) := by
  unfold winOp
  by_cases h1 : (r.addr.toNat - winBase) % r.size.toNat ≠ 0
  · rw [if_pos h1]; exact .inl ⟨.bus, by decide, rfl⟩
  · rw [if_neg h1]
    by_cases h2 : s.busy = true
    · rw [if_pos h2]; exact .inl ⟨.winBusy, by decide, rfl⟩
    · rw [if_neg h2]
      by_cases h3 : r.we = true
      · rw [if_pos h3]; exact .inr (.inr ⟨h3, by simpa using h2, rfl⟩)
      · rw [if_neg h3]
        obtain ⟨d, hd⟩ := loadWindow_spec s (r.addr.toNat - winBase) r.size.toNat
        exact .inr (.inl ⟨_, d, by unfold winRead; rw [hd]⟩)

/-- Everything a bus operation can do: refused; answered with a value, nothing changed but the count of draws; a command accepted; window
bytes stored. -/
theorem busOp_cases (r : BusReq) (s : State) :
    (∃ c, c ≠ .noError ∧ busOp r s = s.raise c) ∨
    (∃ v d, busOp r s = { s with draws := d }.respond v) ∨
    (r.we = true ∧ s.busy = false ∧ ∃ i, decode s.windowBytes (r.wdata.extractLsb' 0 32) = .ok i ∧ busOp r s =
      { s with pending := some i, delay := Config.completionDelay s.draws, draws := s.draws + 1 }.respond 0#64) ∨
    (r.we = true ∧ s.busy = false ∧ legalWidth r.size.toNat = true ∧ winBase ≤ r.addr.toNat ∧
      r.addr.toNat + r.size.toNat ≤ winBase + s.windowBytes ∧ busOp r s =
      { s with window := storeWindow s.window (r.addr.toNat - winBase) r.size.toNat r.wdata }.respond 0#64) := by
  unfold busOp
  by_cases h1 : inRegRegion r.addr.toNat = true
  · rw [if_pos h1]
    exact (regOp_cases r s).imp_right fun h => h.imp_right .inl
  · rw [if_neg h1]
    by_cases h2 : inWindow s.windowBytes r.addr.toNat r.size.toNat = true
    · rw [if_pos h2]
      have h3 := (inWindow_iff _ _ _).1 h2
      exact (winOp_cases r s).imp_right fun h => h.imp_right fun ⟨hw, hb, he⟩ =>
        .inr ⟨hw, hb, h3.1, h3.2.1, h3.2.2, he⟩
    · rw [if_neg h2]; exact .inl ⟨.bus, by decide, rfl⟩

/-- What no bus operation changes. -/
theorem busOp_frame (r : BusReq) (s : State) :
    (busOp r s).hash = s.hash ∧ (busOp r s).digest = s.digest ∧ (busOp r s).dvalid = s.dvalid ∧
      (busOp r s).windowBytes = s.windowBytes ∧ (busOp r s).host = s.host := by
  rcases busOp_cases r s with ⟨c, -, h⟩ | ⟨v, d, h⟩ | ⟨-, -, i, -, h⟩ | ⟨-, -, -, -, -, h⟩ <;> rw [h] <;> simp

/-! ## Single operations -/

theorem accept_busy (w : HalfWord) (s : State) (h : s.pending ≠ none) : accept w s = s.raise .cmdBusy := by
  unfold accept; rw [if_pos (by simpa [State.busy, Option.isSome_iff_ne_none] using h)]

theorem accept_error (w : HalfWord) (s : State) (c : Reject) (h : s.pending = none)
    (hd : decode s.windowBytes w = .error c) : accept w s = s.raise (errOfReject c) := by
  unfold accept; rw [if_neg (by simp [State.busy, h]), hd]

theorem accept_ok (w : HalfWord) (s : State) (i : Instr) (h : s.pending = none) (hd : decode s.windowBytes w = .ok i) :
    accept w s =
      { s with pending := some i, delay := Config.completionDelay s.draws, draws := s.draws + 1 }.respond 0#64 := by
  unfold accept; rw [if_neg (by simp [State.busy, h]), hd]

theorem readReg_idle (s : State) (off : Nat) (r : Reg) (hp : s.pending = none) (h : regAt off = some r) :
    s.readReg off = (s.regValue r, s) := by
  unfold State.readReg; rw [h]; simp [State.busy, hp]

/-- An aligned 32-bit read in the register region is REG_READ32. -/
theorem busOp_regRead (s : State) (d : Word) (off : Nat) (h4 : off % 4 = 0) (hlt : off < 0x1000) :
    busOp ⟨BitVec.ofNat 32 off, false, 4#4, d⟩ s = (s.readReg off).2.respond ((s.readReg off).1.zeroExtend 64) := by
  have hm : (BitVec.ofNat 32 off).toNat = off := by simp; omega
  unfold busOp
  simp only [hm]
  rw [if_pos ((inRegRegion_iff off).2 hlt)]
  simp only [regOp, hm]
  rw [if_neg (by simp [h4])]
  simp [regRead32, regBase]

/-- An aligned 32-bit write in the register region is REG_WRITE32: a command word at CMD, ignored elsewhere. -/
theorem busOp_regWrite (s : State) (d : Word) (off : Nat) (h4 : off % 4 = 0) (hlt : off < 0x1000) :
    busOp ⟨BitVec.ofNat 32 off, true, 4#4, d⟩ s =
      if off = 4 then accept (d.extractLsb' 0 32) s else s.respond 0#64 := by
  have hm : (BitVec.ofNat 32 off).toNat = off := by simp; omega
  unfold busOp
  simp only [hm]
  rw [if_pos ((inRegRegion_iff off).2 hlt)]
  simp only [regOp, hm]
  rw [if_neg (by simp [h4])]
  simp [regWrite32, regBase, regOffset]

/-- The write of a command word to CMD is its acceptance. -/
theorem busOp_cmdWrite (w : HalfWord) (s : State) : busOp (cmdWrite w) s = accept w s := by
  have h := busOp_regWrite s (w.zeroExtend 64) 4 (by decide) (by decide)
  rw [if_pos rfl] at h
  have hw : (w.zeroExtend 64 : BitVec 64).extractLsb' 0 32 = w := by
    apply BitVec.eq_of_toNat_eq
    have := w.isLt
    simp; omega
  rw [hw] at h
  exact h

theorem legalWidth_iff (n : Nat) : legalWidth n = true ↔ n = 1 ∨ n = 2 ∨ n = 4 ∨ n = 8 := by
  simp [legalWidth, or_assoc]

/-- An access of a legal width inside the window is a window operation. -/
theorem busOp_window (r : BusReq) (s : State) (hl : legalWidth r.size.toNat = true) (h1 : 0x10000 ≤ r.addr.toNat)
    (h2 : r.addr.toNat + r.size.toNat ≤ 0x10000 + s.windowBytes) : busOp r s = winOp r s := by
  unfold busOp
  rw [if_neg (by rw [inRegRegion_iff]; omega),
    if_pos ((inWindow_iff _ _ _).2 ⟨hl, by simpa [winBase] using h1, by simpa [winBase] using h2⟩)]

/-- A window index and width as they stand in a request. -/
theorem windowRequest_toNat (n i : Nat) (hn : n = 1 ∨ n = 2 ∨ n = 4 ∨ n = 8) (hi : i < 2 ^ 32 - 0x00010000) :
    (BitVec.ofNat 32 (0x00010000 + i)).toNat = 0x00010000 + i ∧ (BitVec.ofNat 4 n).toNat = n := by
  simp; omega

/-- An aligned read inside the window, BUSY = 0, is WIN_READ. -/
theorem busOp_winRead (s : State) (n i : Nat) (d : Word) (hp : s.pending = none) (hn : n = 1 ∨ n = 2 ∨ n = 4 ∨ n = 8)
    (ha : i % n = 0) (hi : i + n ≤ s.windowBytes) (hW : i < 2 ^ 32 - 0x00010000) :
    busOp ⟨BitVec.ofNat 32 (0x00010000 + i), false, BitVec.ofNat 4 n, d⟩ s =
      (s.loadWindow i n).2.respond (s.loadWindow i n).1 := by
  obtain ⟨h1, h2⟩ := windowRequest_toNat n i hn hW
  rw [busOp_window _ _ (by simp only [h2]; exact (legalWidth_iff n).2 hn) (by simp only [h1]; omega)
    (by simp only [h1, h2]; omega)]
  unfold winOp
  simp only [h1, h2, winBase, Nat.add_sub_cancel_left]
  rw [if_neg (by omega), if_neg (by simp [State.busy, hp])]; rfl

/-- An aligned write inside the window, BUSY = 0, is WIN_WRITE. -/
theorem busOp_winWrite (s : State) (n i : Nat) (v : Word) (hp : s.pending = none) (hn : n = 1 ∨ n = 2 ∨ n = 4 ∨ n = 8)
    (ha : i % n = 0) (hi : i + n ≤ s.windowBytes) (hW : i < 2 ^ 32 - 0x00010000) :
    busOp ⟨BitVec.ofNat 32 (0x00010000 + i), true, BitVec.ofNat 4 n, v⟩ s =
      { s with window := storeWindow s.window i n v }.respond 0#64 := by
  obtain ⟨h1, h2⟩ := windowRequest_toNat n i hn hW
  rw [busOp_window _ _ (by simp only [h2]; exact (legalWidth_iff n).2 hn) (by simp only [h1]; omega)
    (by simp only [h1, h2]; omega)]
  unfold winOp
  simp only [h1, h2, winBase, Nat.add_sub_cancel_left]
  rw [if_neg (by omega), if_neg (by simp [State.busy, hp])]; rfl

end Sys2Proof.Machine
end

