-- ==== Sys2Proof/Laws/Step.lean ====
section
/-! SUPPORT. Everything a step can do, said once. -/

namespace Sys2Proof.Machine

/-- Whose turn it is, in the words of the fields. -/
theorem engineTurn_iff (s : State) : engineTurn s = true ↔ s.pending ≠ none ∧ (s.delay = 0 ∨ s.host = []) := by
  simp [engineTurn, Option.isSome_iff_ne_none]

/-- The engine completes the pending command, or the host acts. -/
theorem step_cases (s t : State) (h : step s = .next t) :
    (∃ i, s.pending = some i ∧ (s.delay = 0 ∨ s.host = []) ∧ exec i s = .next t) ∨
    ((s.pending = none ∨ (s.delay ≠ 0 ∧ s.host ≠ [])) ∧ t = hostStep s) := by
  unfold step at h
  cases hp : s.pending with
  | none => rw [hp] at h; simp only [Host.Outcome.next.injEq] at h; exact .inr ⟨.inl rfl, h.symm⟩
  | some i =>
    rw [hp] at h
    by_cases ht : engineTurn s = true
    · simp only [if_pos ht] at h
      exact .inl ⟨i, rfl, ((engineTurn_iff s).1 ht).2, h⟩
    · simp only [if_neg ht, Host.Outcome.next.injEq] at h
      refine .inr ⟨.inr ?_, h.symm⟩
      have := (engineTurn_iff s).not.1 ht
      simp only [hp, ne_eq, reduceCtorEq, not_false_eq_true, true_and, not_or] at this
      exact this

/-- A poll is one STATUS read, the poll queued again while the bit is set. -/
theorem pollStatus_cases (s : State) :
    pollStatus s = busOp (rd32 (regOffset .status)) s ∨
    pollStatus s = { busOp (rd32 (regOffset .status)) s with
      host := .wait :: (busOp (rd32 (regOffset .status)) s).host } := by
  unfold pollStatus
  by_cases h : readBusyBit (busOp (rd32 (regOffset .status)) s) = true
  · right; simp only [h, if_true]
  · left; simp only [h, Bool.false_eq_true, if_false]

/-- Everything the host's step can do: nothing, a bus operation, a poll, a hardware reset. -/
theorem hostStep_cases (s : State) :
    (s.host = [] ∧ hostStep s = s) ∨
    (∃ r rest, s.host = .bus r :: rest ∧ hostStep s = busOp r (takeAction s rest)) ∨
    (∃ rest, s.host = .wait :: rest ∧ hostStep s = pollStatus (takeAction s rest)) ∨
    (∃ rest, s.host = .hwReset :: rest ∧ hostStep s = (takeAction s rest).hwReset) := by
  unfold hostStep
  cases h : s.host with
  | nil => exact .inl ⟨rfl, rfl⟩
  | cons a rest =>
    cases a with
    | bus r => exact .inr (.inl ⟨r, rest, rfl, rfl⟩)
    | wait => exact .inr (.inr (.inl ⟨rest, rfl, rfl⟩))
    | hwReset => exact .inr (.inr (.inr ⟨rest, rfl, rfl⟩))

end Sys2Proof.Machine
end

