-- ==== Sys2Proof/Laws/HostCalls.lean ====
section
/-! SUPPORT. Calls of host procedures: a report of success says that every operation was answered and none failed (R240), and the queue of a
running call is what its exchanges leave to come. -/

namespace Sys2Proof.Machine

@[simp] theorem actionsAfter_nil (actions : List HostAction) : actionsAfter actions [] = actions := by
  cases actions with
  | nil => rfl
  | cons a rest => cases a <;> rfl

@[simp] theorem actionsAfter_done (es : List Exchange) : actionsAfter [] es = [] := by cases es <;> rfl

theorem actionsAfter_append (actions : List HostAction) (es fs : List Exchange) :
    actionsAfter actions (es ++ fs) = actionsAfter (actionsAfter actions es) fs := by
  induction es generalizing actions with
  | nil => simp
  | cons e es ih =>
    rcases actions with - | ⟨r | - | -, rest⟩
    · simp
    · exact ih rest
    · simp only [List.cons_append, actionsAfter]
      split <;> exact ih _
    · cases fs <;> rfl

/-- Without a failed exchange none was refused (R240). -/
theorem noneRefused_of_ok (trace : List Exchange) (h : procedureOk trace = true) : noneRefused trace = true := by
  simp only [noneRefused, procedureOk, List.all_eq_true, Exchange.failed, Bool.not_eq_true', Bool.or_eq_false_iff] at h ⊢
  exact fun e he => (h e he).1

theorem digestResult_ok (format : Option String) (trace : List Exchange) (r : Rendered) (h : digestResult format trace = some r) :
    procedureOk trace = true := by
  unfold digestResult at h
  split at h
  · split at h
    · assumption
    · cases h
  · cases h

/-- A value is returned only where no response was an error, and where no ERR followed the call's own commands (R240). -/
theorem hostResult_ok (call : HostCall) (trace : List Exchange) (v : HostValue) (h : hostResult call trace = some v) :
    noneRefused trace = true ∧ (call ≠ .wait → procedureOk trace = true) := by
  have key : procedureOk trace = true → noneRefused trace = true ∧ (call ≠ .wait → procedureOk trace = true) :=
    fun ho => ⟨noneRefused_of_ok trace ho, fun _ => ho⟩
  cases call <;> simp only [hostResult, creationOk, Bool.and_eq_true, Option.ite_none_right_eq_some, Option.map_eq_some_iff] at h
  case create => exact key h.1.2
  case wait => exact ⟨h.1, fun hw => absurd rfl hw⟩
  case reset => exact key h.1
  case writeChunk => exact key h.1
  case update => exact key h.1
  case digest => exact key (digestResult_ok _ _ _ h.choose_spec.1)
  case hash => exact key (digestResult_ok _ _ _ h.choose_spec.1)

/-- Success is reported exactly at the end of the call, with the value it returns (R240). -/
theorem hostReport_success (windowBytes : Nat) (call : HostCall) (trace : List Exchange) (v : HostValue) :
    hostReport windowBytes call trace = .success v ↔ toCome windowBytes call trace = [] ∧ hostResult call trace = some v := by
  unfold hostReport
  cases hostResult call trace <;> by_cases h : toCome windowBytes call trace = [] <;> simp [h]

/-- A call that reports success has had every operation answered, with no `rsp_err` and no ERR after its own commands (R240). -/
theorem hostReport_success_ok (windowBytes : Nat) (call : HostCall) (trace : List Exchange) (v : HostValue)
    (h : hostReport windowBytes call trace = .success v) : toCome windowBytes call trace = [] ∧
    (∀ e ∈ trace, e.rsp.err = false) ∧ (call ≠ .wait → ∀ e ∈ trace, e.failed = false) := by
  obtain ⟨h1, h2⟩ := (hostReport_success windowBytes call trace v).1 h
  exact ⟨h1, by simpa [procedureOk, noneRefused] using hostResult_ok call trace v h2⟩

/-- Every bus operation is answered (R200). -/
theorem busOp_rsp (r : BusReq) (s : State) : ∃ rsp, (busOp r s).rsp = some rsp := by
  rcases busOp_cases r s with ⟨c, -, h⟩ | ⟨v, d, h⟩ | ⟨-, -, i, -, h⟩ | ⟨-, -, -, -, -, h⟩ <;> rw [h] <;> exact ⟨_, rfl⟩

/-- A poll stays queued while bit 0 of the value it read is 1 (R232). -/
theorem pollStatus_host (s : State) (rsp : BusRsp) (h : (pollStatus s).rsp = some rsp) :
    (pollStatus s).host = if rsp.rdata.getLsbD 0 then .wait :: s.host else s.host := by
  have hf := (busOp_frame (rd32 (regOffset .status)) s).2.2.2.2
  unfold pollStatus at h ⊢
  obtain ⟨r, hr⟩ := busOp_rsp (rd32 (regOffset .status)) s
  have hb : readBusyBit (busOp (rd32 (regOffset .status)) s) = r.rdata.getLsbD 0 := by unfold readBusyBit; rw [hr]
  simp only [hb] at h ⊢
  cases hx : r.rdata.getLsbD 0 <;> simp only [hx, if_true, Bool.false_eq_true, if_false] at h ⊢ <;>
    · rw [hr, Option.some.injEq] at h; subst h; simp only [hx, hf]; rfl

/-- One step takes off the host's queue what its exchange answers. -/
theorem step_host (s t : State) (hr : HostAction.hwReset ∉ s.host) (h : step s = .next t) :
    t.host = actionsAfter s.host (stepExchange s).toList := by
  by_cases ht : engineTurn s = true
  · obtain ⟨hp, -⟩ := (engineTurn_iff s).1 ht
    obtain ⟨i, hi⟩ := Option.ne_none_iff_exists'.1 hp
    obtain ⟨u, hu, hc⟩ := exec_common i s
    obtain rfl : u = t := by simpa [step, hi, ht, hu] using h
    have hx : stepExchange s = none := by simp [stepExchange, ht]
    simp only [hx, Option.toList_none, actionsAfter_nil]
    exact hc.2.2.2.1
  · have hstep : t = hostStep s := by
      unfold step at h
      cases hp : s.pending <;> simpa [hp, ht, eq_comm] using h
    subst hstep
    unfold stepExchange
    rw [if_neg ht]
    rcases hostStep_cases s with ⟨hh, hs⟩ | ⟨r, rest, hh, hs⟩ | ⟨rest, hh, hs⟩ | ⟨rest, hh, -⟩
    · simp [hh, hs]
    · obtain ⟨rsp, hrsp⟩ := busOp_rsp r (takeAction s rest)
      have hf := (busOp_frame r (takeAction s rest)).2.2.2.2
      simp only [hh, hs, hrsp, Option.map_some, Option.toList_some, actionsAfter, hf]
      rfl
    · have hrsp : ∃ rsp, (pollStatus (takeAction s rest)).rsp = some rsp := by
        obtain ⟨rsp, hr⟩ := busOp_rsp (rd32 (regOffset .status)) (takeAction s rest)
        rcases pollStatus_cases (takeAction s rest) with h | h <;> exact ⟨rsp, by rw [h]; exact hr⟩
      obtain ⟨rsp, hrsp⟩ := hrsp
      simp only [hh, hs, hrsp, Option.map_some, Option.toList_some, actionsAfter, Exchange.value,
        pollStatus_host _ rsp hrsp]
      simp [takeAction]
    · exact absurd (by simp [hh]) hr

/-- No step changes the parameter (R10). -/
theorem step_windowBytes (s t : State) (hr : HostAction.hwReset ∉ s.host) (h : step s = .next t) : t.windowBytes = s.windowBytes := by
  rcases step_cases s t h with ⟨i, -, -, h⟩ | ⟨-, rfl⟩
  · obtain ⟨u, hu, hc⟩ := exec_common i s
    obtain rfl : u = t := by simpa [hu] using h
    exact hc.2.2.1
  · rcases hostStep_cases s with ⟨-, h⟩ | ⟨r, rest, -, h⟩ | ⟨rest, -, h⟩ | ⟨rest, hh, -⟩
    · rw [h]
    · rw [h]; exact (busOp_frame r (takeAction s rest)).2.2.2.1
    · rw [h]
      rcases pollStatus_cases (takeAction s rest) with h | h <;> rw [h] <;>
        exact (busOp_frame (rd32 (regOffset .status)) (takeAction s rest)).2.2.2.1
    · exact absurd (by simp [hh]) hr

theorem mem_actionsAfter (a : HostAction) (actions : List HostAction) (es : List Exchange) (h : a ∈ actionsAfter actions es) :
    a ∈ actions := by
  induction es generalizing actions with
  | nil => simpa using h
  | cons e es ih =>
    rcases actions with - | ⟨r | - | -, rest⟩
    · simp at h
    · exact List.mem_cons_of_mem _ (ih rest h)
    · simp only [actionsAfter] at h
      split at h
      · exact ih _ h
      · exact List.mem_cons_of_mem _ (ih rest h)
    · exact h

theorem hwReset_not_mem_winBytes (i : Nat) (bs : List Byte) : HostAction.hwReset ∉ winBytes i bs := by
  induction bs generalizing i with
  | nil => simp [winBytes]
  | cons b bs ih => simp [winBytes, ih]

/-- No procedure resets the hardware (R231 to R239). -/
theorem hwReset_not_mem_hostActions (windowBytes : Nat) (call : HostCall) (trace : List Exchange) :
    HostAction.hwReset ∉ hostActions windowBytes call trace := by
  have hu : ∀ data, HostAction.hwReset ∉ hostUpdate windowBytes data := by
    intro data
    simp [hostUpdate, hostChunk, hostWriteChunk, hwReset_not_mem_winBytes, syncWord]
  cases call with
  | create material =>
    simp only [hostActions, hostCreate]
    split
    · split <;> simp [hostInit, syncWord]
    · simp
  | wait => simp [hostActions, hostWait]
  | reset => simp [hostActions, hostReset, syncWord]
  | writeChunk c => exact hwReset_not_mem_winBytes 0 c
  | update data => exact hu _
  | digest format => simp only [hostActions]; split <;> simp [hostDigest, syncWord]
  | hash data format =>
    simp only [hostActions]
    split <;> simp [hostHash, hostReset, hostDigest, syncWord, hu]

/-- A call whose operations do not follow from the answers runs as one queue: its exchanges are those of its actions, queued at the call. -/
theorem callTrace_eq_traceOf (call : HostCall) (k : Nat) (trace : List Exchange) (s : State)
    (hc : ∀ es, hostActions s.windowBytes call es = hostActions s.windowBytes call []) :
    callTrace call k trace s = trace ++ traceOf k (queueCall call trace s) := by
  induction k generalizing trace s with
  | zero => simp [callTrace, traceOf]
  | succ k ih =>
    have hr : HostAction.hwReset ∉ (queueCall call trace s).host :=
      fun hm => hwReset_not_mem_hostActions _ _ _ (mem_actionsAfter _ _ _ hm)
    simp only [callTrace, traceOf]
    cases hs : step (queueCall call trace s) with
    | next t =>
      have hw : t.windowBytes = s.windowBytes := step_windowBytes (queueCall call trace s) t hr hs
      have hq : queueCall call (trace ++ (stepExchange (queueCall call trace s)).toList) t = t := by
        have hh : toCome t.windowBytes call (trace ++ (stepExchange (queueCall call trace s)).toList) = t.host := by
          rw [step_host _ t hr hs, toCome, hw, hc, actionsAfter_append, ← hc trace]
          rfl
        unfold queueCall at hh ⊢
        rw [hh]
      simp only
      rw [ih _ _ (by rw [hw]; exact hc), hq, List.append_assoc]
    | fault r => simp
    | refused r => simp

/-- The calls of R232 to R235, R237 and R239, with the queue of their actions. -/
theorem callReport_eq (call : HostCall) (k : Nat) (s : State) (hc : ∀ material, call ≠ .create material) :
    callReport call k s = hostReport s.windowBytes call (traceOf k { s with host := hostActions s.windowBytes call [] }) := by
  unfold callReport
  rw [callTrace_eq_traceOf call k [] s (by cases call <;> first | exact fun _ => rfl | exact absurd rfl (hc _))]
  simp [queueCall, toCome]

end Sys2Proof.Machine
end

