-- ==== Sys2Proof/Laws/PerInstr.lean ====
section
/-! SUPPORT. The per-instruction family EncodeFields: the fields of a command's word are OP, zero, and COUNT (R90 to R94). -/

namespace Sys2Proof.Laws.EncodeFields

/-- The word of i has i's OP, RSV = 0 and i's COUNT in its fields. -/
def Statement (i : Instr) : Prop :=
  opField (encode i) = opOf i ∧ rsvField (encode i) = 0#4 ∧ countField (encode i) = countOf i

/-- The fields of a word put together. -/
theorem commandWord_fields (op rsv : BitVec 4) (count : BitVec 24) :
    opField (commandWord op rsv count) = op ∧ rsvField (commandWord op rsv count) = rsv ∧
      countField (commandWord op rsv count) = count := by
  refine ⟨?_, ?_, ?_⟩ <;> apply BitVec.eq_of_getLsbD_eq <;> intro k hk <;>
    simp only [opField, rsvField, countField, commandWord, BitVec.getLsbD_extractLsb', BitVec.getLsbD_append]
  · simp [hk, show ¬ (28 + k < 24) by omega, show ¬ (28 + k - 24 < 4) by omega, show 28 + k - 24 - 4 = k by omega]
  · simp [hk, show ¬ (24 + k < 24) by omega]
  · simp [hk]

theorem nop : Statement .nop := commandWord_fields _ _ _

theorem init : Statement .init := commandWord_fields _ _ _

theorem reset : Statement .reset := commandWord_fields _ _ _

theorem consume (count : BitVec 24) : Statement (.consume count) := commandWord_fields _ _ _

theorem finalize : Statement .finalize := commandWord_fields _ _ _

theorem clrerr : Statement .clrerr := commandWord_fields _ _ _

end Sys2Proof.Laws.EncodeFields
end

