-- ==== Sys2Proof/Laws/Run.lean ====
section
/-! SUPPORT. Runs of several steps put together, their traces, and what the end of a run leaves (R303). -/

namespace Sys2Proof.Machine

theorem runSteps_one (s t : State) (h : step s = .next t) : runSteps 1 s = .next t := by
  simp only [runSteps, h]

/-- j steps, then k steps. -/
theorem runSteps_add (j k : Nat) (s u t : State) (h1 : runSteps j s = .next u) (h2 : runSteps k u = .next t) :
    runSteps (j + k) s = .next t := by
  induction j generalizing s with
  | zero => simp only [runSteps, Host.Outcome.next.injEq] at h1; subst h1; simpa using h2
  | succ j ih =>
    rw [show j + 1 + k = (j + k) + 1 by omega]
    simp only [runSteps] at h1 ⊢
    cases hs : step s with
    | next v => rw [hs] at h1; simp only at h1 ⊢; exact ih v h1
    | fault r => rw [hs] at h1; cases h1
    | refused r => rw [hs] at h1; cases h1

/-- The trace of j steps, then of k steps. -/
theorem traceOf_add (j k : Nat) (s u : State) (h : runSteps j s = .next u) :
    traceOf (j + k) s = traceOf j s ++ traceOf k u := by
  induction j generalizing s with
  | zero => simp only [runSteps, Host.Outcome.next.injEq] at h; subst h; simp [traceOf]
  | succ j ih =>
    rw [show j + 1 + k = (j + k) + 1 by omega]
    simp only [runSteps] at h
    cases hs : step s with
    | next v => rw [hs] at h; simp only [traceOf, hs, ih v h, List.append_assoc]
    | fault r => rw [hs] at h; cases h
    | refused r => rw [hs] at h; cases h

/-- A STATUS read while BUSY = 1 does not return BUSY = 0. -/
theorem status_read_busy (s : State) (d : Word) (hp : s.pending ≠ none) : ∃ rsp,
    (busOp ⟨BitVec.ofNat 32 8, false, 4#4, d⟩ s).rsp = some rsp ∧ (rsp.rdata.extractLsb' 0 32).getLsbD 0 = true := by
  have hb : s.busy = true := by simpa [State.busy, Option.isSome_iff_ne_none] using hp
  have hr : (s.readReg 8).1 = busyStatus s.err (Config.freeReg s.draws) := by
    unfold State.readReg
    rw [show regAt 8 = some .status by decide]
    simp only [hb, if_true, State.busyRegValue]
  refine ⟨_, by rw [busOp_regRead s d 8 (by decide) (by decide)]; rfl, ?_⟩
  rw [hr]
  have h0 : (busyStatus s.err (Config.freeReg s.draws)).getLsbD 0 = true := by
    unfold busyStatus; simp only [BitVec.getLsbD_append]; simp
  simp only [BitVec.getLsbD_extractLsb', BitVec.zeroExtend, BitVec.getLsbD_setWidth]
  simpa using h0

/-- The response of a poll is that of its STATUS read. -/
theorem pollStatus_rsp (s : State) : (pollStatus s).rsp = (busOp (rd32 (regOffset .status)) s).rsp := by
  rcases pollStatus_cases s with h | h <;> rw [h]

/-- A STATUS read that returned BUSY = 0 leaves no command pending. -/
theorem readsIdle_pending (r : BusReq) (rsp : BusRsp) (s : State) (hr : (busOp r s).rsp = some rsp)
    (h : Exchange.readsIdle ⟨r, rsp⟩ = true) : (busOp r s).pending = none := by
  obtain ⟨addr, we, size, d⟩ := r
  simp only [Exchange.readsIdle, Exchange.readsStatus, Exchange.value, regBase, regOffset, Bool.and_eq_true,
    Bool.not_eq_true', beq_iff_eq] at h
  obtain ⟨⟨⟨⟨rfl, ha⟩, hs⟩, -⟩, h0⟩ := h
  obtain rfl : addr = BitVec.ofNat 32 8 := BitVec.eq_of_toNat_eq ha
  obtain rfl : size = 4#4 := BitVec.eq_of_toNat_eq hs
  by_cases hp : s.pending = none
  · obtain ⟨n, hn⟩ := readReg_spec s 8
    rw [busOp_regRead s d 8 (by decide) (by decide), hn]
    exact hp
  · obtain ⟨rsp', h1, h2⟩ := status_read_busy s d hp
    rw [hr, Option.some.injEq] at h1
    subst h1
    rw [h2] at h0; cases h0

/-- A run ends with no command pending and nothing left to issue: no further step changes anything. -/
theorem endsRun_final (s t : State) (he : endsRun s = true) (h : step s = .next t) :
    t.host = [] ∧ t.pending = none ∧ step t = .next t := by
  obtain ⟨hhost, e, hx, hidle⟩ : (hostStep s).host = [] ∧ ∃ e, stepExchange s = some e ∧ e.readsIdle = true := by
    unfold endsRun at he
    rw [Bool.and_eq_true] at he
    refine ⟨List.isEmpty_iff.1 he.1, ?_⟩
    cases hx : stepExchange s with
    | none => rw [hx] at he; exact absurd he.2 (by simp)
    | some e => rw [hx] at he; exact ⟨e, rfl, he.2⟩
  have hturn : engineTurn s = false := by
    cases ht : engineTurn s with
    | false => rfl
    | true => simp [stepExchange, ht] at hx
  have hstep : t = hostStep s := by
    unfold step at h
    cases hp : s.pending <;> simpa [hp, hturn, eq_comm] using h
  have hpend : (hostStep s).pending = none := by
    unfold stepExchange at hx
    rw [hturn, if_neg (by simp)] at hx
    rcases hostStep_cases s with ⟨hh, -⟩ | ⟨r, rest, hh, hs⟩ | ⟨rest, hh, hs⟩ | ⟨rest, hh, -⟩ <;> rw [hh] at hx
    · cases hx
    · simp only [hs, Option.map_eq_some_iff] at hx
      obtain ⟨rsp, hr, rfl⟩ := hx
      rw [hs]; exact readsIdle_pending r rsp _ hr hidle
    · simp only [hs, Option.map_eq_some_iff, pollStatus_rsp] at hx
      obtain ⟨rsp, hr, rfl⟩ := hx
      have := readsIdle_pending _ rsp _ hr hidle
      rw [hs]
      rcases pollStatus_cases (takeAction s rest) with h | h <;> rw [h] <;> exact this
    · cases hx
  subst hstep
  refine ⟨hhost, hpend, ?_⟩
  have hsame : ∀ u : State, u.pending = none → u.host = [] → step u = .next u := by
    intro u h1 h2; simp [step, h1, hostStep, h2]
  exact hsame _ hpend hhost

end Sys2Proof.Machine
end

