-- ==== Sys2Proof/Tests/Slice0.lean ====
section
/-! SUPPORT. Small tests: expected results are the spec's own (spec/95_test_vectors.md, written 95 below, and spec/30_encoding.md); then a
witness for the hypotheses of every obligation that has some. -/

namespace Sys2Proof.Tests

open Sys2Proof Sys2Proof.Machine

/-! ## Helpers -/

/-- The 95 notation `seq(n)`. -/
def seq (n : Nat) : List Byte := (List.range n).map fun i => BitVec.ofNat 8 i

/-- "abc". -/
def abc : List Byte := [0x61#8, 0x62#8, 0x63#8]

/-- "The quick brown fox jumps over the lazy dog". -/
def quickFox : List Byte :=
  [0x54, 0x68, 0x65, 0x20, 0x71, 0x75, 0x69, 0x63, 0x6B, 0x20, 0x62, 0x72, 0x6F, 0x77, 0x6E, 0x20, 0x66, 0x6F,
   0x78, 0x20, 0x6A, 0x75, 0x6D, 0x70, 0x73, 0x20, 0x6F, 0x76, 0x65, 0x72, 0x20, 0x74, 0x68, 0x65, 0x20, 0x6C,
   0x61, 0x7A, 0x79, 0x20, 0x64, 0x6F, 0x67]

/-- A window that holds bs from index 0. -/
def windowOf (bs : List Byte) : Memory := Memory.writeBytes [] 0 bs

/-- After reset, bs in the window. -/
def loaded (bs : List Byte) : State := { State.reset with window := windowOf bs }

/-- After reset, bs absorbed at seed 0. -/
def absorbed (bs : List Byte) : State := { State.reset with hash := absorbBytes State.reset.hash bs }

/-- The command i pending after reset, no host action to come. -/
def pendingNow (i : Instr) : State := { State.reset with pending := some i }

/-- The command i pending for one more host action. -/
def pendingLater (i : Instr) (a : HostAction) : State := { State.reset with pending := some i, delay := 1, host := [a] }

/-- The host's next action after reset. -/
def hostNow (a : HostAction) : State := { State.reset with host := [a] }

/-- The check p on the next state; false on a stop. -/
def after (o : Host.Outcome State Fault Refusal) (p : State → Bool) : Bool :=
  match o with
  | .next t => p t
  | .fault _ => false
  | .refused _ => false

/-! ## Well-formedness: COUNT may not pass the window -/

theorem test_wf_count_at_end : (Instr.consume 16384#24).wf 16384 = true := by decide
theorem test_wf_count_past_end : (Instr.consume 16385#24).wf 16384 = false := by decide
theorem test_wf_count_past_small_window : (Instr.consume 33#24).wf 32 = false := by decide
theorem test_wf_others : (Instr.nop.wf 32 && Instr.init.wf 32 && Instr.reset.wf 32 && Instr.finalize.wf 32 && Instr.clrerr.wf 32) = true := by
  decide

/-! ## Decoding, from 30_encoding.md R99 and 95 section 2.6 -/

theorem test_decode_nop : decode 16384 0x00000000#32 = .ok .nop := by decide
theorem test_decode_nop_count : decode 16384 0x00000001#32 = .error .reservedNonzero := by decide
theorem test_decode_init : decode 16384 0x10000000#32 = .ok .init := by decide
theorem test_decode_init_count : decode 16384 0x10000005#32 = .error .reservedNonzero := by decide
theorem test_decode_reset : decode 16384 0x20000000#32 = .ok .reset := by decide
theorem test_decode_consume_0 : decode 16384 0x30000000#32 = .ok (.consume 0#24) := by decide
theorem test_decode_consume_3 : decode 16384 0x30000003#32 = .ok (.consume 3#24) := by decide
theorem test_decode_consume_end : decode 16384 0x30004000#32 = .ok (.consume 16384#24) := by decide
theorem test_decode_consume_past : decode 16384 0x30004001#32 = .error .countRange := by decide
theorem test_decode_consume_max : decode 16384 0x30FFFFFF#32 = .error .countRange := by decide
theorem test_decode_consume_max_window : decode 16777215 0x30FFFFFF#32 = .ok (.consume 16777215#24) := by decide
theorem test_decode_consume_rsv : decode 16384 0x31000003#32 = .error .reservedNonzero := by decide
theorem test_decode_rsv_before_count : decode 16384 0x31FFFFFF#32 = .error .reservedNonzero := by decide
theorem test_decode_finalize : decode 16384 0x40000000#32 = .ok .finalize := by decide
theorem test_decode_finalize_rsv : decode 16384 0x4F000000#32 = .error .reservedNonzero := by decide
theorem test_decode_clrerr : decode 16384 0x50000000#32 = .ok .clrerr := by decide
theorem test_decode_op_6 : decode 16384 0x60000000#32 = .error .illegalOp := by decide
theorem test_decode_op_before_rsv : decode 16384 0x7F000000#32 = .error .illegalOp := by decide
theorem test_decode_op_15 : decode 16384 0xFFFFFFFF#32 = .error .illegalOp := by decide

theorem test_encode_words : [Instr.nop, .init, .reset, .consume 16384#24, .finalize, .clrerr].map encode =
    [0x00000000#32, 0x10000000#32, 0x20000000#32, 0x30004000#32, 0x40000000#32, 0x50000000#32] := by decide

theorem test_table_word : decodeTableWord 32 0x30000003 = some (.consume 3#24) := by decide
theorem test_table_word_rejected : decodeTableWord 32 0x60000000 = none := by decide

theorem test_opcode_map : opcodeMap = [Instr.nop, .init, .reset, .consume 0#24, .finalize, .clrerr].map rowOf := by decide

/-! ## Datapath functions, from 95 section 2.1 -/

theorem test_round : round 0#64 1#64 = 0x7F0E345BE3649CD2#64 ∧ round prime1 prime2 = 0x1B0917BC8762A770#64 := by decide
theorem test_lane_init : laneInit 0xFFFFFFFFFFFFFFFF#64 =
    ⟨0x60EA27EEADC0B5D5#64, 0xC2B2AE3D27D4EB4E#64, 0xFFFFFFFFFFFFFFFF#64, 0x61C8864E7A143578#64⟩ := by decide
theorem test_consume_block : consumeBlock (laneInit 0#64) (seq 32) =
    ⟨0xF4B53B57406B5E99#64, 0xC3D34B511FC32561#64, 0xCB26C007C8A1553F#64, 0x9A44D001A7F91C07#64⟩ := by decide
theorem test_merge_lanes : mergeLanes ⟨1#64, 1#64, 1#64, 1#64⟩ = 0x0000000000041082#64 := by decide
theorem test_merge_round : mergeRound 0#64 1#64 = 0x9D049A611F451521#64 := by decide
theorem test_merge_all : mergeAll
    ⟨0xF4B53B57406B5E99#64, 0xC3D34B511FC32561#64, 0xCB26C007C8A1553F#64, 0x9A44D001A7F91C07#64⟩ = 0xC845DBC88C411C2D#64 := by decide
theorem test_tail8 : tail8 prime5 0x0706050403020100#64 = 0x79FD9AA38485FF74#64 := by decide
theorem test_tail4_zero_extends : tail4 0#64 0x80000000#32 = 0x79B45A29E69090A7#64 := by decide
theorem test_tail1_zero_extends : tail1 0#64 0x80#8 = 0x8BE2905C89885AC5#64 := by decide
theorem test_tail_process : tailProcess 0x27D4EB2F165667C8#64 abc = 0xE87A46F8B9A4C39E#64 := by decide
theorem test_avalanche : avalanche prime5 = 0xEF46DB3751D8E999#64 ∧ avalanche 1#64 = 0x283A72A5B9AB93D3#64 := by decide

/-! ## Commands, one completion each -/

/-- R162: only PENDING changes. -/
theorem test_nop : after (exec .nop (pendingNow .nop)) (fun t => decide (t = State.reset)) = true := by decide

/-- 95 P2, after step 2. -/
theorem test_init : after (exec .init (loaded [1, 2, 3, 4, 5, 6, 7, 8])) (fun t => decide
    (t.hash = ⟨false, [], 0#64, 0x0807060504030201#64, 0x2FDBF1341A5969C6#64,
      ⟨0x68F12DF3B1C3B7D7#64, 0xCAB9B4422BD7ED50#64, 0x0807060504030201#64, 0x69CF8C537E17377A#64⟩⟩)) = true := by decide

set_option maxRecDepth 20000 in
/-- R164: the held seed, not the window, and DVALID cleared. -/
theorem test_reset_keeps_seed : after
    (exec .reset { loaded [1, 2, 3, 4, 5, 6, 7, 8] with hash := absorbBytes (hashInit 5#64) (seq 33), dvalid := true })
    (fun t => decide (t.hash = hashInit 5#64) && !t.dvalid) = true := by decide

/-- 95 P1, after step 2. -/
theorem test_consume_abc : after (exec (.consume 3#24) (loaded abc)) (fun t => decide
    (t.hash.tail = abc ∧ t.hash.total = 3#64 ∧ t.hash.large = false ∧ t.status = 0x00000018#32)) = true := by decide

set_option maxRecDepth 20000 in
/-- 95 section 2.8, forty bytes absorbed; the lanes of 95 section 2.1. -/
theorem test_consume_40 : after (exec (.consume 40#24) (loaded (seq 40))) (fun t => decide
    (t.status = 0x00000042#32 ∧ t.hash.lanes.v4 = 0x9A44D001A7F91C07#64 ∧ t.hash.tail = (seq 40).drop 32)) = true := by decide

/-- 95 P1, after step 3 (source vector S1). -/
theorem test_finalize_abc : after (exec .finalize (absorbed abc)) (fun t => decide
    (t.digest = 0x44BC2CF5AD770999#64 ∧ t.status = 0x0000001C#32 ∧
      t.window = windowOf [0x44, 0xBC, 0x2C, 0xF5, 0xAD, 0x77, 0x09, 0x99])) = true := by decide

set_option maxRecDepth 20000 in
/-- 95 section 1.3, K3 (large regime, TAIL8 and TAIL1). -/
theorem test_finalize_large : after (exec .finalize
    (absorbed quickFox)) (fun t => decide
    (t.digest = 0x0B242D361FDA71BC#64)) = true := by decide

/-- R167. -/
theorem test_clrerr : after (exec .clrerr { pendingNow .clrerr with err := .bus }) (fun t => decide (t = State.reset)) = true := by
  decide

/-! ## Whole hashes, from 95 sections 2.2 to 2.4 -/

set_option maxRecDepth 20000 in
theorem test_hash_31 : xxh64 0#64 (seq 31) = 0xC346D2B59B4D8EE1#64 := by decide
set_option maxRecDepth 20000 in
theorem test_hash_64 : xxh64 0#64 (seq 64) = 0xF7C67301DB6713F0#64 := by decide
set_option maxRecDepth 20000 in
theorem test_hash_high_bytes : xxh64 0#64 (List.replicate 5 0xFF#8) = 0xDCD83DDC0A09CC20#64 := by decide
set_option maxRecDepth 20000 in
theorem test_hash_seeded : xxh64 0x0807060504030201#64 (seq 45) = 0x7501B1DDE47BFE2E#64 := by decide

/-! ## Bus operations, from 95 section 2.7 -/

/-- The response to r in s. -/
def answer (r : BusReq) (s : State) : Option BusRsp := (busOp r s).rsp

theorem test_read_id : answer (rd32 0x000) State.reset = some ⟨0x58483634#64, false⟩ := by decide
theorem test_read_winsize : answer (rd32 0x00C) State.reset = some ⟨0x00004000#64, false⟩ := by decide
theorem test_read_winbase : answer (rd32 0x010) State.reset = some ⟨0x00010000#64, false⟩ := by decide
theorem test_read_narrow : busOp ⟨0x000#32, false, 2#4, 0#64⟩ State.reset = State.reset.raise .bus := by decide
theorem test_read_misaligned : busOp (rd32 0x002) State.reset = State.reset.raise .bus := by decide
theorem test_read_cmd : answer (rd32 0x004) State.reset = some ⟨0#64, false⟩ := by decide
theorem test_read_reserved : answer (rd32 0x014) State.reset = some ⟨0#64, false⟩ := by decide
theorem test_write_status_ignored : busOp (wr32 0x008 0xFFFFFFFF#32) State.reset = State.reset.respond 0#64 := by decide
theorem test_read_unmapped : busOp (rd32 0x1000) State.reset = State.reset.raise .bus ∧
    busOp (rd32 0xFFFC) State.reset = State.reset.raise .bus := by decide
theorem test_window_write : (busOp (winwr 8 0 0x0807060504030201#64) State.reset).window = windowOf [1, 2, 3, 4, 5, 6, 7, 8] := by decide
theorem test_window_misaligned : busOp (winwr 8 4 0#64) State.reset = State.reset.raise .bus := by decide
theorem test_window_last_word : (busOp (winwr 4 16380 0x04030201#64) State.reset).window.read 16383 = some 4#8 := by decide
theorem test_window_past_end : busOp ⟨0x14000#32, true, 1#4, 0#64⟩ State.reset = State.reset.raise .bus := by decide
theorem test_window_width_3 : busOp ⟨0x10000#32, true, 3#4, 0#64⟩ State.reset = State.reset.raise .bus := by decide
theorem test_window_odd_size : (busOp (winwr 1 32 9#64) { State.reset with windowBytes := 33 }).window = [(32, 9#8)] ∧
    answer (winwr 8 32 0#64) { State.reset with windowBytes := 33 } = some ⟨0#64, true⟩ := by decide
theorem test_window_busy : busOp (winwr 1 0 7#64) (pendingNow .nop) = (pendingNow .nop).raise .winBusy := by decide
theorem test_window_busy_misaligned : busOp (winwr 2 1 7#64) (pendingNow .nop) = (pendingNow .nop).raise .bus := by decide
theorem test_read_id_busy : answer (rd32 0x000) (pendingNow .nop) = some ⟨0x58483634#64, false⟩ := by decide
theorem test_cmd_busy : busOp (cmdWrite 0x60000000#32) (pendingNow .nop) = (pendingNow .nop).raise .cmdBusy := by decide

/-- R262: the first error stays. -/
theorem test_error_sticky : (busOp (rd32 0x002) { State.reset with err := .countRange }).err = .countRange := by decide

/-- 95 P1, end state. -/
theorem test_read_tailw : answer (rd32 0x060) (absorbed abc) = some ⟨0x00636261#64, false⟩ := by decide
theorem test_read_v4_hi : answer (rd32 0x05C) State.reset = some ⟨0x61C8864E#64, false⟩ := by decide

/-! ## STATUS, from 95 section 2.8 -/

theorem test_status_reset : State.reset.status = 0x00000000#32 := by decide
theorem test_status_all : packStatus (ErrCode.winBusy.code) 31#5 true true false = 0x000006FE#32 := by decide
theorem test_status_err : packStatus (ErrCode.countRange.code) 3#5 false false false = 0x00000218#32 := by decide
theorem test_status_busy : (busyStatus .bus 0xFFFFFFFF#32) = 0x000005FF#32 := by decide

/-! ## Host procedures, from 95 section 2.9 -/

theorem test_derive_seed : deriveSeed ([1, 2, 3, 4, 5, 6, 7, 8, 9].map .integer) = some 0x0807060504030208#64 ∧ deriveSeed [] = some 0#64 := by decide
theorem test_derive_seed_fails : deriveSeed [.integer 1, .integer 256] = none ∧ deriveSeed [.integer 1, .notInteger] = none := by decide
theorem test_render_raw : rawForm 0x44BC2CF5AD770999#64 = [68, 188, 44, 245, 173, 119, 9, 153] := by decide
theorem test_render_bigint : bigintForm 0x44BC2CF5AD770999#64 = 11027476751619767364 := by decide
theorem test_render_hex : hexForm 0x00A396EF1679A859#64 = "59a87916ef96a300".toList := by decide
theorem test_format_numeric : formatOfName "numeric" = some .bigint ∧ formatOfName "base64" = none := by decide
/-- 95 P1's exchanges from step 3 on: the write of FINALIZE, the STATUS read of `wait`, the window read. -/
def p1Trace (status : Word) : List Exchange :=
  [⟨cmdWrite 0x40000000#32, ⟨0#64, false⟩⟩, ⟨rd32 0x008, ⟨status, false⟩⟩, ⟨winrd 8 0, ⟨0x990977ADF52CBC44#64, false⟩⟩]

/-- 95 P1, step 4 (source vector S1), and the default format (R237). -/
theorem test_digest_result : digestResult (some "hex") (p1Trace 0x1C#64) = some (.hex "990977adf52cbc44") ∧
    digestResult none (p1Trace 0x1C#64) = some (.raw [68, 188, 44, 245, 173, 119, 9, 153]) := by decide

/-- R240: ERR = 5 in the STATUS read after completion, and a refused read, are failures; ERR while BUSY = 1 decides nothing. -/
theorem test_digest_fails : digestResult (some "hex") (p1Trace 0x51C#64) = none ∧
    digestResult none (p1Trace 0x1C#64 ++ [⟨winrd 8 0, ⟨0#64, true⟩⟩]) = none ∧
    procedureOk [⟨rd32 0x008, ⟨0x501#64, false⟩⟩] = true := by decide

/-- 92_eei_decisions.md D31: an unknown format is refused before any command. -/
theorem test_unknown_format_refused : toCome 32 (.digest (some "base64")) [] = [] ∧
    hostReport 32 (.digest (some "base64")) [] = .failed ∧ hostReport 32 (.hash (.text "abc") (some "base64")) [] = .failed ∧
    toCome 32 (.digest none) [] = hostDigest := by decide

/-- R240: nothing is reported before the last operation is answered, and a refused first command is a failure at the end. -/
theorem test_report_reset : hostReport 32 .reset [] = .unfinished ∧
    hostReport 32 .reset [⟨cmdWrite 0x20000000#32, ⟨0#64, false⟩⟩, ⟨rd32 0x008, ⟨0x01#64, false⟩⟩] = .unfinished ∧
    hostReport 32 .reset [⟨cmdWrite 0x20000000#32, ⟨0#64, false⟩⟩, ⟨rd32 0x008, ⟨0x01#64, false⟩⟩, ⟨rd32 0x008, ⟨0x00#64, false⟩⟩] =
      .success .hasher ∧
    hostReport 32 .reset [⟨cmdWrite 0x20000000#32, ⟨0#64, true⟩⟩, ⟨rd32 0x008, ⟨0x500#64, false⟩⟩] = .failed := by decide

/-- R235: empty data issues no command. R237, 95 P1: the digest comes with the last exchange. -/
theorem test_report_digest : hostReport 32 (.update (.bytes [])) [] = .success .hasher ∧
    hostReport 32 (.update (.bytes [1#8])) [] = .unfinished ∧
    hostReport 32 (.digest (some "hex")) (p1Trace 0x1C#64) = .success (.digest (.hex "990977adf52cbc44")) ∧
    hostReport 32 (.digest (some "hex")) ((p1Trace 0x1C#64).take 2) = .unfinished ∧
    hostReport 32 (.digest (some "hex")) (p1Trace 0x51C#64) = .failed := by decide

/-- R234, R240: a chunk write answered WIN_BUSY fails at its end. R232: `wait` ends with the poll that returns bit 0 = 0, whatever ERR. -/
theorem test_report_chunk_and_wait :
    hostReport 32 (.writeChunk abc) [⟨winwr 1 0 0x61#64, ⟨0#64, false⟩⟩, ⟨winwr 1 1 0x62#64, ⟨0#64, true⟩⟩] = .unfinished ∧
    hostReport 32 (.writeChunk [1#8]) [⟨winwr 1 0 1#64, ⟨0#64, true⟩⟩] = .failed ∧
    hostReport 32 (.writeChunk [1#8]) [⟨winwr 1 0 1#64, ⟨0#64, false⟩⟩] = .success .unit ∧
    hostReport 32 .wait [⟨rd32 0x008, ⟨0x01#64, false⟩⟩] = .unfinished ∧
    hostReport 32 .wait [⟨rd32 0x008, ⟨0x600#64, false⟩⟩] = .success .unit := by decide

/-- R207, R234, R240: the call itself, made while a command is pending. -/
theorem test_chunk_while_busy :
    callReport (.writeChunk [1#8]) 1 { State.reset with pending := some .nop, delay := 1 } = .failed ∧
    callReport (.writeChunk [1#8]) 1 State.reset = .success .unit := by decide

/-- The exchanges of a creation whose last read of STATUS returns `status` (R231). -/
def createTrace (status : Word) : List Exchange :=
  [⟨rd32 0x000, ⟨0x58483634#64, false⟩⟩, ⟨winwr 8 0 0#64, ⟨0#64, false⟩⟩, ⟨cmdWrite 0x10000000#32, ⟨0#64, false⟩⟩,
    ⟨rd32 0x008, ⟨0x00#64, false⟩⟩, ⟨rd32 0x008, ⟨status, false⟩⟩]

/-- R231: a hasher only with the last STATUS read, and none where ERR ≠ 0 there. -/
theorem test_creation : hostReport 32 (.create none) (createTrace 0x00#64) = .success .hasher ∧
    (∀ k < 5, hostReport 32 (.create none) ((createTrace 0x00#64).take k) = .unfinished) ∧
    hostReport 32 (.create none) (createTrace 0x300#64) = .failed := by decide

/-- R230, R231: ID is read first; bad material or another ID ends the creation there, with no further operation. -/
theorem test_creation_ends_at_id : toCome 32 (.create (some [.integer 256])) [] = [.bus (rd32 0x000)] ∧
    hostReport 32 (.create (some [.notInteger])) ((createTrace 0x00#64).take 1) = .failed ∧
    toCome 32 (.create (some [.integer 256])) ((createTrace 0x00#64).take 1) = [] ∧
    hostReport 32 (.create none) [⟨rd32 0x000, ⟨0x58483635#64, false⟩⟩] = .failed := by decide

theorem test_utf8 : utf8Bytes "abc" = abc ∧ utf8Bytes "é" = [0xC3#8, 0xA9#8] := by decide
theorem test_asm_consume : asmCommand (some 16384) .consume (some 3) = some 0x30000003#32 := by decide
/-- R100, R101: every index below WINDOW_BYTES, whether or not there is a byte. -/
theorem test_winbytes : expandAsm (some 32) (.winbytes 30 [1#8, 2#8]) = some [.bus (winwr 1 30 1#64), .bus (winwr 1 31 2#64)] ∧
    expandAsm (some 32) (.winbytes 31 [1#8, 2#8]) = none ∧ expandAsm (some 32) (.winstr 32 "") = none := by decide

theorem test_asm_consume_refused : asmCommand none .consume (some 16777216) = none := by decide

/-! ## Steps -/

/-- The invariant's window part at reset. -/
theorem test_reset_window : Memory.wf State.reset.window = true := by decide

/-- The reset state's hash state is LANE_INIT(0) (10_state.md R47, 40_datapath.md R122). -/
theorem test_reset_hash : State.reset.hash = hashInit 0#64 := by decide

/-- 70_reset_and_hazards.md R290. -/
theorem test_hw_reset : after (step { hostNow .hwReset with err := .bus, digest := 1#64, window := windowOf abc })
    (fun t => decide (t = State.reset)) = true := by decide

/-- The staged word runs in the next step. -/
theorem test_fetch_runs : after (step ((loaded abc).withFetchWord 32 0x30000003)) (fun t => decide (t.hash.tail = abc)) = true := by decide

/-- A staged word that the decoder rejects is refused at the bus (R160). -/
theorem test_fetch_rejected : after (step (State.reset.withFetchWord 32 0x60000000)) (fun t => decide
    (t.err = .illegalOp ∧ t.rsp = some ⟨0#64, true⟩)) = true := by decide

/-- `wait` (R101, R49): while BUSY = 1 bit 0 is 1 whatever the draw, so the poll is queued again. -/
theorem test_wait_repeats (drawn : HalfWord) : (busyStatus .noError drawn).getLsbD 0 = true := by
  unfold busyStatus; simp only [BitVec.getLsbD_append]; simp

/-- `wait` ends when BUSY = 0. -/
theorem test_wait_ends : after (step (hostNow .wait)) (fun t => decide (t.host = [] ∧ t.rsp = some ⟨0#64, false⟩)) = true := by decide

/-- R303: a run ends with a STATUS read that returns BUSY = 0, not at reset, and not with a last command or window access. -/
theorem test_ends_run : endsRun (hostNow .wait) = true ∧ endsRun (hostNow (.bus (rd32 0x008))) = true ∧
    endsRun State.reset = false ∧ endsRun (hostNow (.bus (cmdWrite 0x00000000#32))) = false ∧
    endsRun (hostNow (.bus (winrd 1 0))) = false ∧ endsRun (hostNow .hwReset) = false := by decide

/-- R303, after reset: ID, WINSIZE and V4_HI of the register values, and the window. -/
theorem test_observe : (observe State.reset).regs[0]? = some 0x58483634#32 ∧ (observe State.reset).regs[3]? = some 0x4000#32 ∧
    (observe State.reset).regs[20]? = some 0x61C8864E#32 ∧ (observe (loaded abc)).window = windowOf abc := by decide

/-! ## Witnesses: for each obligation with hypotheses, concrete inputs that meet them, clause by clause -/

/-- Every constructor, CONSUME with COUNT = WINDOW_BYTES at both ends of the parameter's range. -/
theorem witness_DecodeOfEncodeIsTheCommand : (Instr.consume 16777215#24).wf 16777215 = true ∧
    (Instr.consume 32#24).wf 32 = true ∧ Instr.nop.wf 32 = true ∧ Instr.init.wf 32 = true ∧ Instr.reset.wf 32 = true ∧
    Instr.finalize.wf 32 = true ∧ Instr.clrerr.wf 32 = true := by decide

theorem witness_EncodeOfDecodeIsTheWord : decode 32 0x30000020#32 = .ok (.consume 32#24) := by decide

/-- A word for each of the ten clauses: OP at 6 and 15, RSV at 1 and 15, COUNT at 1 and one past the window, the six commands. -/
theorem witness_DecodeFollowsTheCheckOrder :
    (6 ≤ (0x60000000#32).toNat / 2 ^ 28 ∧ 6 ≤ (0xFFFFFFFF#32).toNat / 2 ^ 28) ∧
    ((0x5F000000#32).toNat / 2 ^ 28 < 6 ∧ (0x5F000000#32).toNat / 2 ^ 24 % 16 ≠ 0 ∧ (0x01000000#32).toNat / 2 ^ 24 % 16 ≠ 0) ∧
    ((0x50000001#32).toNat / 2 ^ 28 < 6 ∧ (0x50000001#32).toNat / 2 ^ 24 % 16 = 0 ∧ (0x50000001#32).toNat / 2 ^ 28 ≠ 3 ∧
      (0x50000001#32).toNat % 2 ^ 24 ≠ 0) ∧
    ((0x30000021#32).toNat / 2 ^ 28 = 3 ∧ (0x30000021#32).toNat / 2 ^ 24 % 16 = 0 ∧ 32 < (0x30000021#32).toNat % 2 ^ 24) ∧
    ((0x30000020#32).toNat / 2 ^ 28 = 3 ∧ (0x30000020#32).toNat / 2 ^ 24 % 16 = 0 ∧ (0x30000020#32).toNat % 2 ^ 24 ≤ 32) ∧
    (∀ op ∈ [0, 1, 2, 4, 5], (BitVec.ofNat 32 (op * 2 ^ 28)).toNat / 2 ^ 28 = op ∧
      (BitVec.ofNat 32 (op * 2 ^ 28)).toNat / 2 ^ 24 % 16 = 0 ∧ (BitVec.ofNat 32 (op * 2 ^ 28)).toNat % 2 ^ 24 = 0) := by
  decide

/-- A word that a row selects, and one that none selects. -/
theorem witness_WordSelectsAtMostOneOpcodeRow : decode 16384 0x30000003#32 = .ok (.consume 3#24) ∧
    (rowOf (.consume 3#24) ∈ opcodeMap ∧ 0x30000003#32 &&& (rowOf (.consume 3#24)).mask = (rowOf (.consume 3#24)).matchBits) ∧
    (∀ row ∈ opcodeMap, 0x60000000#32 &&& row.mask ≠ row.matchBits) := by decide

theorem witness_AssembledCommandsAreAccepted : asmCommand (some 32) .consume (some 32) = some 0x30000020#32 ∧
    (Instr.consume 32#24).wf 32 = true ∧ 32 < 33 ∧ 16777215 < 16777216 ∧ Mnemonic.init ≠ .consume := by decide

/-- BUSY; a rejected word; an accepted word. -/
theorem witness_CommandWriteIsAcceptedOrRefused : (pendingNow .nop).pending ≠ none ∧
    (State.reset.pending = none ∧ decode State.reset.windowBytes 0x60000000#32 = .error .illegalOp) ∧
    (State.reset.pending = none ∧ decode State.reset.windowBytes 0x30004000#32 = .ok (.consume 16384#24)) := by decide

/-- OP = 6 and 15; RSV = 1; COUNT = 1 on NOP; COUNT one past the window. -/
theorem witness_IllegalAndReservedWordsRecordTheirCode : State.reset.pending = none ∧
    (6 ≤ (0x60000000#32).toNat / 2 ^ 28 ∧ 6 ≤ (0xF0000000#32).toNat / 2 ^ 28) ∧
    ((0x31000000#32).toNat / 2 ^ 28 < 6 ∧ (0x31000000#32).toNat / 2 ^ 24 % 16 ≠ 0) ∧
    ((0x00000001#32).toNat / 2 ^ 28 < 6 ∧ (0x00000001#32).toNat / 2 ^ 28 ≠ 3 ∧ (0x00000001#32).toNat % 2 ^ 24 ≠ 0) ∧
    ((0x30004001#32).toNat / 2 ^ 28 = 3 ∧ (0x30004001#32).toNat / 2 ^ 24 % 16 = 0 ∧
      State.reset.windowBytes < (0x30004001#32).toNat % 2 ^ 24) := by decide

/-- A staged word; a CMD write queued; a rejected word. -/
theorem witness_StepRunsTheDecodedCommand : decode State.reset.windowBytes 0x30000003#32 = .ok (.consume 3#24) ∧
    (decode (hostNow (.bus (cmdWrite 0x10000000#32))).windowBytes 0x10000000#32 = .ok .init ∧
      (hostNow (.bus (cmdWrite 0x10000000#32))).pending = none ∧
      (hostNow (.bus (cmdWrite 0x10000000#32))).host = [.bus (cmdWrite 0x10000000#32)]) ∧
    decode State.reset.windowBytes 0x31000003#32 = .error .reservedNonzero := by decide

/-- The engine by its delay and by the empty queue; the host by an idle engine and by the delay; nobody. -/
theorem witness_StepIsEngineOrHost :
    ((pendingNow .nop).pending = some .nop ∧ (pendingNow .nop).delay = 0 ∧ (pendingNow .nop).host = []) ∧
    ((hostNow .wait).host = [.wait] ∧ (hostNow .wait).pending = none) ∧
    ((pendingLater .nop .wait).host = [.wait] ∧ (pendingLater .nop .wait).delay ≠ 0) ∧
    (State.reset.pending = none ∧ State.reset.host = []) := by decide

/-- A written seed byte. -/
theorem witness_InitLoadsTheSeedAndReseeds : (loaded (seq 8)).window.read 7 = some 7#8 := by decide

/-- A written byte under COUNT. -/
theorem witness_ConsumeAbsorbsTheWindowBytes : (loaded abc).window.read 2 = some 0x63#8 ∧ 2 < (3#24).toNat := by decide

set_option maxRecDepth 20000 in
/-- NOP, INIT, CONSUME with LARGE = 1, CLRERR. -/
theorem witness_NonStoringCommandsFrame :
    (∃ t, exec .nop State.reset = .next t) ∧ (∃ t, exec .init (loaded (seq 8)) = .next t) ∧
    (∃ t, exec (.consume 3#24) { loaded abc with hash := absorbBytes (hashInit 0#64) (seq 32) } = .next t ∧
      (absorbBytes (hashInit 0#64) (seq 32)).large = true) ∧
    (∃ t, exec .clrerr State.reset = .next t) ∧ (Instr.nop ≠ .finalize ∧ Instr.consume 3#24 ≠ .finalize) :=
  ⟨⟨_, rfl⟩, ⟨_, rfl⟩, ⟨_, rfl, by decide⟩, ⟨_, rfl⟩, by decide⟩

/-- A byte just past the eight, and one of them. -/
theorem witness_FinalizeFrame : (∃ t, exec .finalize (loaded (seq 9)) = .next t) ∧ 8 ∉ digestIndices ∧ 7 ∈ digestIndices :=
  ⟨⟨_, rfl⟩, by decide⟩

theorem witness_RotateMovesEveryBit : (1 ≤ 1 ∧ 1 ≤ 63 ∧ 0 < 64) ∧ (1 ≤ 63 ∧ 63 ≤ 63 ∧ 63 < 64) := by decide

/-- The first and the last byte of a 32-bit tail word. -/
theorem witness_TailWordsAreZeroExtended : 0 < 4 ∧ 3 < 4 ∧ (1 : Word) = (1 : Word) ^^^ ((1 : Word) >>> 33) := by decide

/-- Lane 1 and lane 4: blocks and lanes that differ elsewhere. -/
theorem witness_LanesAreIndependent :
    ((seq 32).length = 32 ∧ (seq 8 ++ List.replicate 24 0#8).length = 32 ∧
      laneOf ⟨5#64, 0#64, 0#64, 0#64⟩ 0 = laneOf ⟨5#64, 1#64, 2#64, 3#64⟩ 0 ∧
      ∀ j, j < 8 → (seq 32)[8 * (0 : Fin 4).val + j]? = (seq 8 ++ List.replicate 24 0#8)[8 * (0 : Fin 4).val + j]?) ∧
    ((List.replicate 24 0#8 ++ (seq 32).drop 24).length = 32 ∧
      laneOf ⟨0#64, 0#64, 0#64, 5#64⟩ 3 = laneOf ⟨1#64, 2#64, 3#64, 5#64⟩ 3 ∧
      ∀ j, j < 8 → (seq 32)[8 * (3 : Fin 4).val + j]? =
        (List.replicate 24 0#8 ++ (seq 32).drop 24)[8 * (3 : Fin 4).val + j]?) := by decide

/-- Lengths 31 and 8; 7 and 4; 3 and 1; 0. -/
theorem witness_TailProcessTakesItsStepsInOrder :
    ((seq 31).length ≤ 31 ∧ 8 ≤ (seq 31).length ∧ 8 ≤ (seq 8).length) ∧
    (4 ≤ (seq 7).length ∧ (seq 7).length < 8 ∧ 4 ≤ (seq 4).length) ∧
    (abc = 0x61#8 :: [0x62#8, 0x63#8] ∧ abc.length < 4 ∧ seq 1 = 0#8 :: []) ∧ seq 0 = [] := by decide

set_option maxRecDepth 20000 in
theorem witness_RegimesReadTheirOwnRegisters : (absorbBytes (hashInit 0#64) (seq 31)).large = false ∧
    (absorbBytes (hashInit 0#64) (seq 32)).large = true := by decide

set_option maxRecDepth 20000 in
/-- Tails of 0, 30 and 31 bytes. -/
theorem witness_AbsorbByteConsumesFullBlocks : (hashInit 0#64).tail.length < 31 ∧
    (absorbBytes (hashInit 0#64) (seq 30)).tail.length < 31 ∧ (absorbBytes (hashInit 0#64) (seq 31)).tail.length = 31 := by
  decide

set_option maxRecDepth 20000 in
/-- A tail of 31 bytes, and 33 written bytes to absorb. -/
theorem witness_ConsumeIsItsChunkForm :
    ({ absorbed (seq 31) with window := windowOf (seq 33) } : State).hash.tail.length ≤ 31 ∧
    (seq 33).length = (33#24).toNat ∧
    ∀ j, j < (seq 33).length → ({ absorbed (seq 31) with window := windowOf (seq 33) } : State).window.read j = (seq 33)[j]? := by
  decide

theorem witness_StreamedHashIsTheWholeMessageHash : (seq 31).length ≤ 31 ∧ 32 ≤ (seq 32).length := by decide

/-- From a RESET: a NOP, a CONSUME of "abc", a bus read, a FINALIZE. From an INIT: eight seed bytes. -/
theorem witness_DigestOfPiecesIsDigestOfTheWhole :
    (∃ s u, (exec .reset (loaded abc) = .next s ∧ 0#64 = (loaded abc).hash.seed) ∧ CommandRun s abc u) ∧
    (∃ s, exec .init (loaded (seq 8)) = .next s ∧
      (∀ j, j < 8 → (loaded (seq 8)).window.read j = some ((0x0706050403020100#64).extractLsb' (8 * j) 8)) ∧
      CommandRun s [] s) :=
  ⟨⟨_, _, ⟨rfl, rfl⟩, .quiet abc _ _ .finalize (.inr (.inr rfl))
      (.bus abc _ (rd32 0x008) (.consume [] abc _ _ 3#24 rfl (by decide) (.quiet [] _ _ .nop (.inl rfl) .none rfl) rfl)) rfl⟩,
   ⟨_, rfl, by decide, .none⟩⟩

/-- A FINALIZE, then a CONSUME of no byte, a CLRERR and a second FINALIZE. -/
theorem witness_FinalizeIsNonDestructive : ∃ t u, exec .finalize (absorbed abc) = .next t ∧ CommandRun t [] u :=
  ⟨_, _, rfl, .quiet [] _ _ .finalize (.inr (.inr rfl)) (.quiet [] _ _ .clrerr (.inr (.inl rfl)) .none rfl) rfl⟩

theorem witness_ResetAndInitRestoreTheEmptyDigest : ∀ j, j < 8 →
    (loaded (seq 8)).window.read j = some ((0x0706050403020100#64).extractLsb' (8 * j) 8) := by decide

/-- Two windows, of different sizes, that agree on the three bytes and not on the fourth. -/
theorem witness_ConsumeDependsOnlyOnItsOperands :
    (loaded (abc ++ [1])).hash = ({ loaded (abc ++ [2]) with windowBytes := 32 } : State).hash ∧
    ∀ j, j < (3#24).toNat → ∃ b, (loaded (abc ++ [1])).window.read j = some b ∧
      ({ loaded (abc ++ [2]) with windowBytes := 32 } : State).window.read j = some b :=
  ⟨rfl, fun j hj => ⟨abc.getD j 0#8, by revert j; decide⟩⟩

theorem witness_InitAfterFinalizeTakesTheSwappedDigest : ∃ t, exec .finalize (absorbed abc) = .next t := ⟨_, rfl⟩

theorem witness_InvariantHoldsAfterReset : (32 ≤ 32 ∧ 32 ≤ 16777215) ∧ (32 ≤ 16777215 ∧ 16777215 ≤ 16777215) := by decide

set_option maxRecDepth 20000 in
/-- The invariant in a state with written bytes, an absorbed block, a pending CONSUME of the whole window and a current digest. -/
theorem inv_example : ({ State.reset with
    windowBytes := 32, window := windowOf abc, hash := absorbBytes (hashInit 7#64) (seq 33),
    pending := some (.consume 32#24), dvalid := true, digest := finalizeFn (absorbBytes (hashInit 7#64) (seq 33)) } : State).Inv :=
  { paramRange := by decide
    windowCanonical := by decide
    windowInside := by decide
    hashAbsorbed := ⟨seq 33, by decide⟩
    pendingLegal := fun i hi => by cases hi; decide
    digestCurrent := fun _ => rfl }

theorem witness_StepKeepsTheInvariant : ∃ s t : State, s.Inv ∧ s.pending = some (.consume 32#24) ∧ step s = .next t :=
  ⟨_, _, inv_example, rfl, rfl⟩

set_option maxRecDepth 20000 in
/-- No block, and one block with a tail byte. -/
theorem witness_StepKeepsTheByteCount : State.reset.CountInv ∧ (absorbed (seq 33)).CountInv ∧
    ∃ t, step (absorbed (seq 33)) = .next t :=
  ⟨⟨by decide, 0, by decide⟩, ⟨by decide, 1, by decide⟩, _, rfl⟩

/-- The reset state with the smallest window is reachable. -/
theorem reachable_start : Reachable { State.reset with windowBytes := 32 } := .start 32 (by decide)

set_option maxRecDepth 20000 in
/-- A reachable state; an INIT, a RESET and a hardware reset that write ACC5; a small-regime state. -/
theorem witness_Acc5IsSeedPlusPrime5 : Reachable { State.reset with windowBytes := 32 } ∧
    (∃ t, step { loaded (seq 8) with pending := some .init } = .next t ∧ t.hash.acc5 ≠ (loaded (seq 8)).hash.acc5) ∧
    (∃ t, step { hostNow .hwReset with hash := hashInit 5#64 } = .next t ∧ t.hash.acc5 ≠ (hashInit 5#64).acc5) ∧
    (absorbed (seq 31)).hash.large = false :=
  ⟨reachable_start, ⟨_, rfl, by decide⟩, ⟨_, rfl, by decide⟩, by decide⟩

/-- A FINALIZE accepted, in a reachable state. -/
def finalizeAccepted : State := hostStep { State.reset with windowBytes := 32, host := [.bus (cmdWrite 0x40000000#32)] }

/-- A reachable state with DVALID = 1: the FINALIZE accepted, then completed. -/
theorem witness_DvalidMeansDigestIsCurrent : ∃ s, Reachable s ∧ s.dvalid = true := by
  have hp : finalizeAccepted.pending = some .finalize := by decide
  have ht : engineTurn finalizeAccepted = true := (engineTurn_iff _).2 ⟨by rw [hp]; simp, .inr rfl⟩
  have hs : step finalizeAccepted = exec .finalize finalizeAccepted := by simp only [step, hp, ht, if_true]
  exact ⟨_, .stepped _ _ (.stepped _ finalizeAccepted (.choose _ [.bus (cmdWrite 0x40000000#32)] reachable_start) rfl) hs, rfl⟩

theorem witness_OnlyReseedsAndConsumeWriteTheHashState :
    (∃ t, step { loaded (seq 8) with pending := some .init } = .next t ∧ t.hash.seed ≠ (loaded (seq 8)).hash.seed) ∧
    (∃ t, step { loaded abc with pending := some (.consume 3#24) } = .next t ∧ t.hash ≠ (loaded abc).hash) ∧
    (∃ t, step { hostNow .hwReset with hash := hashInit 5#64 } = .next t ∧ t.hash.seed ≠ (hashInit 5#64).seed) :=
  ⟨⟨_, rfl, by decide⟩, ⟨_, rfl, by decide⟩, ⟨_, rfl, by decide⟩⟩

theorem witness_OnlyFinalizeAndResetWriteTheDigest :
    (∃ t, step { absorbed abc with pending := some .finalize } = .next t ∧ t.digest ≠ (absorbed abc).digest) ∧
    (∃ t, step { hostNow .hwReset with digest := 5#64 } = .next t ∧ t.digest ≠ 5#64) :=
  ⟨⟨_, rfl, by decide⟩, ⟨_, rfl, by decide⟩⟩

/-- FINALIZE at index 7; a host write at its last byte; a hardware reset. -/
theorem witness_WindowBytesChangeOnlyByWriteFinalizeOrReset :
    (∃ t, step (pendingNow .finalize) = .next t ∧ t.window.read 7 ≠ (pendingNow .finalize).window.read 7) ∧
    (∃ t, step (hostNow (.bus (winwr 4 16380 0#64))) = .next t ∧
      t.window.read 16383 ≠ (hostNow (.bus (winwr 4 16380 0#64))).window.read 16383) ∧
    (∃ t, step { hostNow .hwReset with window := windowOf abc } = .next t ∧ t.window.read 0 ≠ (windowOf abc).read 0) :=
  ⟨⟨_, rfl, by decide⟩, ⟨_, rfl, by decide⟩, ⟨_, rfl, by decide⟩⟩

/-- CLRERR; hardware reset; a refusal; a command that is not CLRERR. -/
theorem witness_ErrClearsOnlyByClrerrOrReset :
    (∃ t, step { pendingNow .clrerr with err := .bus } = .next t ∧ t.err ≠ .bus) ∧
    (∃ t, step { hostNow .hwReset with err := .bus } = .next t ∧ t.err ≠ .bus) ∧
    (∃ t, step (hostNow (.bus (rd32 0x002))) = .next t ∧ t.err ≠ .noError) ∧
    (∃ t, exec .nop State.reset = .next t ∧ Instr.nop ≠ .clrerr) :=
  ⟨⟨_, rfl, by decide⟩, ⟨_, rfl, by decide⟩, ⟨_, rfl, by decide⟩, ⟨_, rfl, by decide⟩⟩

theorem witness_ParameterNeverChanges : ∃ t, step (hostNow .hwReset) = .next t := ⟨_, rfl⟩

theorem witness_PendingCommandIsUndisturbed : (pendingLater (.consume 3#24) (.bus (winwr 1 0 0#64))).pending = some (.consume 3#24) ∧
    (pendingLater (.consume 3#24) (.bus (winwr 1 0 0#64))).delay ≠ 0 ∧
    (pendingLater (.consume 3#24) (.bus (winwr 1 0 0#64))).host = .bus (winwr 1 0 0#64) :: [] ∧
    HostAction.bus (winwr 1 0 0#64) ≠ .hwReset := by decide

/-- With an action to come, and with none. -/
theorem witness_PendingCommandCompletes :
    ((pendingLater .init .wait).pending = some .init ∧ HostAction.hwReset ∉ (pendingLater .init .wait).host) ∧
    ((pendingNow .init).pending = some .init ∧ HostAction.hwReset ∉ (pendingNow .init).host) := by decide

/-- Idle, and with a command pending that is not due. -/
theorem witness_HardwareResetGivesTheResetValues :
    ((hostNow .hwReset).host = .hwReset :: [] ∧ (hostNow .hwReset).pending = none) ∧
    ((pendingLater .finalize .hwReset).host = .hwReset :: [] ∧ (pendingLater .finalize .hwReset).delay ≠ 0) := by decide

theorem witness_RegisterReadsGiveTheirRegisters : State.reset.pending = none := by decide

set_option maxRecDepth 20000 in
/-- The first and the last TAILW, bytes inside and past the tail. -/
theorem witness_TailRegistersShowTheTail : (absorbed (seq 31)).pending = none ∧ 0 < 8 ∧ 7 < 8 ∧ 0 < 4 ∧ 3 < 4 ∧
    4 * 7 + 2 < (absorbed (seq 31)).hash.tail.length ∧ ¬ 4 * 7 + 3 < (absorbed (seq 31)).hash.tail.length := by decide

set_option maxRecDepth 20000 in
theorem witness_StatusShowsTheFlags : (absorbed (seq 31)).tailCnt ≤ 31 ∧ (absorbed (seq 31)).pending = none := by decide

/-- The reserved offsets, the first and the last of 0x080 to 0xFFF; ignored writes at 0x000 and 0xFFC. -/
theorem witness_ReservedAndReadOnlyOffsetsAreHarmless :
    (∀ off ∈ [0x014, 0x038, 0x03C, 0x080, 0xFFC], off % 4 = 0 ∧ off < 0x1000 ∧
      (off = 0x014 ∨ off = 0x038 ∨ off = 0x03C ∨ 0x080 ≤ off)) ∧
    (∀ off ∈ [0x000, 0x008, 0xFFC], off % 4 = 0 ∧ off < 0x1000 ∧ off ≠ 0x004) := by decide

theorem witness_RegisterReadsWhileBusy : (pendingNow .nop).pending ≠ none ∧
    ∀ off ∈ [0x000, 0x008, 0xFFC], off % 4 = 0 ∧ off < 0x1000 := by decide

/-- A narrow and a misaligned register access; a window access of a bad width, misaligned, past the end; unmapped bytes below and above the
window, and one past the register region. -/
theorem witness_BadAccessesAreBusErrors :
    ((0x000#32).toNat < 0x1000 ∧ (2#4).toNat ≠ 4) ∧ ((0xFFE#32).toNat < 0x1000 ∧ (0xFFE#32).toNat % 4 ≠ 0) ∧
    (0x00010000 ≤ (0x10000#32).toNat ∧ (0x10000#32).toNat < 0x00010000 + 33 ∧
      (3#4).toNat ≠ 1 ∧ (3#4).toNat ≠ 2 ∧ (3#4).toNat ≠ 4 ∧ (3#4).toNat ≠ 8) ∧
    (((0x10001#32).toNat - 0x00010000) % (2#4).toNat ≠ 0) ∧
    ((0x10020#32).toNat < 0x00010000 + 33 ∧ 0x00010000 + 33 < (0x10020#32).toNat + (8#4).toNat) ∧
    (0 < (4#4).toNat ∧ ¬ ((0xFFFC#32).toNat + 0 < 0x1000 ∨
      (0x00010000 ≤ (0xFFFC#32).toNat + 0 ∧ (0xFFFC#32).toNat + 0 < 0x00010000 + 33))) ∧
    (0 < (1#4).toNat ∧ ¬ ((0x10021#32).toNat + 0 < 0x1000 ∨
      (0x00010000 ≤ (0x10021#32).toNat + 0 ∧ (0x10021#32).toNat + 0 < 0x00010000 + 33))) ∧
    (3 < (4#4).toNat ∧ ¬ ((0xFFD#32).toNat + 3 < 0x1000 ∨
      (0x00010000 ≤ (0xFFD#32).toNat + 3 ∧ (0xFFD#32).toNat + 3 < 0x00010000 + 33))) := by decide

/-- The last aligned doubleword of the window; the CMD register; the last register offset. -/
theorem witness_AccessesWhileBusyAreRefused : (pendingNow .nop).pending ≠ none ∧
    ((8#4).toNat = 8 ∧ 0x00010000 ≤ (0x13FF8#32).toNat ∧
      (0x13FF8#32).toNat + (8#4).toNat ≤ 0x00010000 + (pendingNow .nop).windowBytes ∧
      ((0x13FF8#32).toNat - 0x00010000) % (8#4).toNat = 0) ∧
    ((0x004#32).toNat = 0x004 ∧ (4#4).toNat = 4) ∧ ((0xFFC#32).toNat < 0x1000 ∧ (0xFFC#32).toNat % 4 = 0) := by decide

theorem witness_RefusedOperationsChangeOnlyErr : (busOp (rd32 0x1000) State.reset).rsp = some ⟨0#64, true⟩ := by decide

/-- A refusal; a read; an accepted command; a window write. -/
theorem witness_ReadsHaveNoSideEffect : (busOp (rd32 0x1000) State.reset).err ≠ State.reset.err ∧ (rd32 0x000).we = false ∧
    (busOp (cmdWrite 0x00000000#32) State.reset).pending ≠ State.reset.pending ∧
    (busOp (winwr 2 6 0x0201#64) State.reset).window ≠ State.reset.window ∧
    (busOp (winwr 2 6 0x0201#64) State.reset).window.read 7 ≠ State.reset.window.read 7 := by decide

/-- The last doubleword of the smallest window, and the last byte of an odd-sized one. -/
theorem witness_WindowWriteThenReadGivesTheValue :
    ({ State.reset with windowBytes := 32 } : State).pending = none ∧ (24 % 8 = 0 ∧ 24 + 8 ≤ 32 ∧ 32 ≤ 16777215) ∧
    (16777214 % 1 = 0 ∧ 16777214 + 1 ≤ 16777215) := by decide

theorem witness_WindowReadIsLittleEndian :
    (loaded (seq 8)).pending = none ∧ 0 % 8 = 0 ∧ 0 + 8 ≤ (loaded (seq 8)).windowBytes ∧
    (loaded (seq 8)).windowBytes ≤ 16777215 ∧ (loaded (seq 8)).window.read (0 + 7) = some 7#8 := by decide

theorem witness_DigestIsBigEndianInTheWindow : 8 ≤ (absorbed abc).windowBytes ∧ ∃ t, exec .finalize (absorbed abc) = .next t :=
  ⟨by decide, _, rfl⟩

/-- Elements just outside 0..255, and one that is no integer. -/
theorem witness_SeedMaterialIsXorFolded : (.integer (-1) ∈ [SeedElement.integer 1, .integer (-1)] ∧ (-1 : Int) < 0) ∧
    (.integer 256 ∈ [SeedElement.integer 256] ∧ (255 : Int) < 256) ∧ .notInteger ∈ [SeedElement.integer 1, .notInteger] := by decide

theorem witness_DigestFormatsAgree : (0 < 16 ∧ 15 < 16) ∧ (0 < 8 ∧ 7 < 8) ∧
    ((rawForm 0x44BC2CF5AD770999#64)[7 - 0]? = some 0x99#8 ∧ (rawForm 0x44BC2CF5AD770999#64)[7 - 7]? = some 0x44#8) ∧ ∃ t, exec .finalize (absorbed abc) = .next t :=
  ⟨by decide, by decide, by decide, _, rfl⟩

/-- HOST_HASH of 33 bytes on the smallest window, after another hash left seed and tail behind. -/
theorem witness_HostHashComputesXxh64 : ∃ s : State, s.Inv ∧ s.pending = none ∧ s.host = hostHash s.windowBytes (seq 33) ++ [] :=
  ⟨{ State.reset with windowBytes := 32, hash := absorbBytes (hashInit 7#64) abc, host := hostHash 32 (seq 33) ++ [] },
    { paramRange := by decide
      windowCanonical := by decide
      windowInside := by decide
      hashAbsorbed := ⟨abc, by decide⟩
      pendingLegal := fun i hi => by cases hi
      digestCurrent := fun h => by cases h }, rfl, rfl⟩

end Sys2Proof.Tests
end

section
/-! PROOFS. The statements of 00_scope.md: the bit law of the rotation, what CONSUME reads, whose turn a step is, the datapath formulas. -/

namespace Sys2Proof.Machine

/-! ## Rotation and little-endian words -/

/-- A bit of `rotl64` below the amount comes from the top of the word (R13). -/
theorem rotl64_getLsbD_of_lt (x : Word) (r i : Nat) (hr : r ≤ 63) (hi : i < r) :
    (rotl64 x r).getLsbD i = x.getLsbD (i + (64 - r)) := by
  simp [rotl64, hi, show i < 64 by omega, Nat.add_comm]

/-- A bit of `rotl64` from the amount on comes from r places below (R13). -/
theorem rotl64_getLsbD_of_ge (x : Word) (r i : Nat) (hr : r ≤ 63) (hri : r ≤ i) (hi : i < 64) :
    (rotl64 x r).getLsbD i = x.getLsbD (i - r) := by
  have hpast : x.getLsbD (64 - r + i) = false := BitVec.getLsbD_of_ge x _ (by omega)
  rw [rotl64, BitVec.getLsbD_or, BitVec.getLsbD_shiftLeft, BitVec.getLsbD_ushiftRight, hpast]
  simp [hi, show ¬ i < r by omega]

/-- Settles O19: the shifted-out top bits fill the places below r, the others move up by r. -/
theorem rotateMovesEveryBit : Obligations.RotateMovesEveryBit := by
  intro x r i _ hr hi
  by_cases hlow : i < r
  · rw [rotl64_getLsbD_of_lt x r i hr hlow, Nat.mod_eq_of_lt (by omega)]
  · have hwrap : (i + (64 - r)) % 64 = i - r := by omega
    rw [rotl64_getLsbD_of_ge x r i hr (by omega) hi, hwrap]

/-- Byte j of `le32` (R15). -/
theorem le32_byte (s : List Byte) (i j : Nat) (h : j < 4) :
    (le32 s i).extractLsb' (8 * j) 8 = s.getD (i + j) 0#8 := by
  rw [le32, extract_ofNat_leNat 32 _ j (by omega)]
  simp [List.getD_eq_getElem?_getD, h]

/-! ## The datapath formulas -/

/-- ROUND from a zero accumulator, as MERGE_ROUND and TAIL8 use it. -/
theorem round_zero (k : Word) : round 0#64 k = rotl64 (k * prime2) 31 * prime1 := by
  rw [round, BitVec.zero_add]

/-- Settles O20: zero-extension is the word of the unsigned value, and a zero accumulator drops out of ROUND. -/
theorem tailWordsAreZeroExtended : Obligations.TailWordsAreZeroExtended := by
  refine ⟨fun _ _ => rfl, fun _ _ => rfl, fun _ => rfl, fun acc lane => ?mergeRound, fun acc k => ?tail8,
    fun acc k => ?tail4, fun acc b => ?tail1, le32_byte, fun acc a b c ha hb hc => ?avalanche⟩
  case mergeRound => rw [mergeRound, round_zero, prime1, prime2, prime4]
  case tail8 => rw [tail8, round_zero, prime1, prime2, prime4]
  case tail4 => rw [tail4, BitVec.ofNat_toNat, prime1, prime2, prime3]
  case tail1 => rw [tail1, BitVec.ofNat_toNat, prime1, prime5]
  case avalanche => rw [hc, hb, ha]; rfl

/-! ## CONSUME -/

/-- The arm of CONSUME (R165). -/
@[simp] theorem exec_consume (count : BitVec 24) (s : State) : exec (.consume count) s = execConsume count s := rfl

/-- Settles O31: both operands are the same byte list, and the next hash state is its absorption. -/
theorem consumeDependsOnlyOnItsOperands : Obligations.ConsumeDependsOnlyOnItsOperands := by
  intro s t count hhash hwin
  obtain ⟨bs, d, hlen, hbytes, hs⟩ := execConsume_spec count s
  obtain ⟨bs', d', hlen', hbytes', ht⟩ := execConsume_spec count t
  have hsame : bs = bs' := by
    apply List.ext_getElem?
    intro j
    by_cases hj : j < count.toNat
    · obtain ⟨b, hbs, hbt⟩ := hwin j hj
      rw [hbytes j b hj hbs, hbytes' j b hj hbt]
    · rw [List.getElem?_eq_none (by omega), List.getElem?_eq_none (by omega)]
  refine ⟨_, _, (exec_consume count s).trans hs, (exec_consume count t).trans ht, ?_⟩
  simp only [hhash, hsame]

/-! ## Whose turn a step is -/

/-- On the engine's turn a step completes the pending command (R161). -/
theorem step_of_engineTurn (s : State) (i : Instr) (hp : s.pending = some i) (ht : engineTurn s = true) :
    step s = exec i s := by
  simp only [step, hp, ht, if_true]

/-- On any other turn a step is the host's (R19). -/
theorem step_of_not_engineTurn (s : State) (ht : engineTurn s = false) : step s = .next (hostStep s) := by
  unfold step
  split <;> simp [ht]

/-- With nothing pending it is not the engine's turn. -/
theorem engineTurn_of_pending_none (s : State) (hp : s.pending = none) : engineTurn s = false := by
  simp [engineTurn, hp]

/-- The host takes its next action off its queue. -/
theorem hostStep_cons (s : State) (a : HostAction) (rest : List HostAction) (h : s.host = a :: rest) :
    hostStep s = hostAct a (takeAction s rest) := by
  rw [hostStep, h]

/-- A host without further actions does nothing. -/
theorem hostStep_nil (s : State) (h : s.host = []) : hostStep s = s := by
  rw [hostStep, h]

/-- Settles O10: `engineTurn` decides who moves, and the host's step is its next action or nothing. -/
theorem stepIsEngineOrHost : Obligations.StepIsEngineOrHost := by
  refine fun s => ⟨fun i hp hturn => ?engine, fun a rest hh hturn => ?host, fun hp hh => ?idle⟩
  case engine =>
    exact step_of_engineTurn s i hp ((engineTurn_iff s).2 ⟨by simp [hp], hturn⟩)
  case host =>
    have hnot : engineTurn s = false := by
      rcases hturn with hp | hd
      · exact engineTurn_of_pending_none s hp
      · simp [engineTurn, hd, hh]
    rw [step_of_not_engineTurn s hnot, hostStep_cons s a rest hh, takeAction]
  case idle =>
    rw [step_of_not_engineTurn s (engineTurn_of_pending_none s hp), hostStep_nil s hh]

end Sys2Proof.Machine
end

section
/-! PROOFS. The statements of 10_state.md: what each step does to the block's state, the invariant and the byte count, who writes the hash
state, ACC5, DIGEST and DVALID, hardware reset, and the register reads. -/

namespace Sys2Proof.Machine

/-! ## What a completion does -/

/-- Everything a completion can do (R161 to R167). -/
theorem exec_cases (i : Instr) (s t : State) (h : exec i s = .next t) :
    (i = .nop ∧ t = s.complete) ∨
    (i = .clrerr ∧ t = { s with err := .noError }.complete) ∨
    (i = .finalize ∧ t = { s with digest := finalizeFn s.hash, window := storeDigest s.window (finalizeFn s.hash),
                                  dvalid := true, pending := none, delay := 0 }) ∨
    (i = .reset ∧ t = (s.reseed s.hash.seed).complete) ∨
    (i = .init ∧ ∃ seed d, t = { s with hash := hashInit seed, dvalid := false, pending := none, delay := 0, draws := d }) ∨
    (∃ count bs d, i = .consume count ∧
      t = { s with hash := absorbBytes s.hash bs, dvalid := false, pending := none, delay := 0, draws := d }) := by
  cases i with
  | nop => exact .inl ⟨rfl, (Host.Outcome.next.inj h).symm⟩
  | clrerr => exact .inr (.inl ⟨rfl, (Host.Outcome.next.inj h).symm⟩)
  | finalize => exact .inr (.inr (.inl ⟨rfl, (Host.Outcome.next.inj h).symm⟩))
  | reset => exact .inr (.inr (.inr (.inl ⟨rfl, (Host.Outcome.next.inj h).symm⟩)))
  | init =>
    obtain ⟨bs, d, -, -, hspec⟩ := execInit_spec s
    exact .inr (.inr (.inr (.inr (.inl ⟨rfl, le64 bs 0, d, (Host.Outcome.next.inj (hspec.symm.trans h)).symm⟩))))
  | consume count =>
    obtain ⟨bs, d, -, -, hspec⟩ := execConsume_spec count s
    exact .inr (.inr (.inr (.inr (.inr ⟨count, bs, d, rfl, (Host.Outcome.next.inj (hspec.symm.trans h)).symm⟩))))

/-! ## What a host action does -/

/-- A word that the decoder accepts is a legal command (R102). -/
theorem decode_ok_wf (windowBytes : Nat) (w : HalfWord) (i : Instr) (h : decode windowBytes w = .ok i) :
    i.wf windowBytes = true := by
  unfold decode at h
  split at h
  · cases h
  · split_ifs at h with hrsv hcount hwf
    cases h
    simpa using hwf

/-- Everything that a host action other than hardware reset can do to the block: submit one legal command, or store bytes inside the
window; never the hash state, DIGEST or DVALID (R20, R29, R50). -/
structure BusEffect (s t : State) : Prop where
  hash : t.hash = s.hash
  digest : t.digest = s.digest
  dvalid : t.dvalid = s.dvalid
  windowBytes : t.windowBytes = s.windowBytes
  pending : t.pending = s.pending ∨ ∃ i, i.wf s.windowBytes = true ∧ t.pending = some i
  window : t.window = s.window ∨ ∃ i bs, i + bs.length ≤ s.windowBytes ∧ t.window = s.window.writeBytes i bs

/-- Every bus operation has such an effect. -/
theorem busOp_effect (r : BusReq) (s : State) : BusEffect s (busOp r s) := by
  obtain ⟨hhash, hdigest, hdvalid, hparam, -⟩ := busOp_frame r s
  refine ⟨hhash, hdigest, hdvalid, hparam, ?pending, ?window⟩
  case pending =>
    rcases busOp_cases r s with ⟨c, -, h⟩ | ⟨v, d, h⟩ | ⟨-, -, i, hi, h⟩ | ⟨-, -, -, -, -, h⟩ <;> rw [h]
    · exact .inl (raise_pending s c)
    · exact .inl rfl
    · exact .inr ⟨i, decode_ok_wf _ _ _ hi, rfl⟩
    · exact .inl rfl
  case window =>
    rcases busOp_cases r s with ⟨c, -, h⟩ | ⟨v, d, h⟩ | ⟨-, -, i, -, h⟩ | ⟨-, -, -, hlow, hhigh, h⟩ <;> rw [h]
    · exact .inl (raise_window s c)
    · exact .inl rfl
    · exact .inl rfl
    · refine .inr ⟨r.addr.toNat - winBase, leBytes r.size.toNat r.wdata, ?_, rfl⟩
      rw [leBytes_length]
      omega

/-- A poll has the effect of its STATUS read. -/
theorem pollStatus_effect (s : State) : BusEffect s (pollStatus s) := by
  have hread := busOp_effect (rd32 (regOffset .status)) s
  rcases pollStatus_cases s with h | h <;> rw [h]
  · exact hread
  · exact { hread with }

/-- Taking an action off the queue does nothing to the block. -/
theorem busEffect_of_takeAction (s t : State) (rest : List HostAction) (h : BusEffect (takeAction s rest) t) : BusEffect s t :=
  { h with }

/-- Everything a step can do to the block: a completion, a hardware reset, or the effect of another host action. -/
theorem step_effect (s t : State) (h : step s = .next t) :
    (∃ i, s.pending = some i ∧ exec i s = .next t) ∨
    (∃ rest, s.host = .hwReset :: rest ∧ t = (takeAction s rest).hwReset) ∨
    BusEffect s t := by
  rcases step_cases s t h with ⟨i, hp, -, hexec⟩ | ⟨-, rfl⟩
  · exact .inl ⟨i, hp, hexec⟩
  · rcases hostStep_cases s with ⟨-, hs⟩ | ⟨r, rest, -, hs⟩ | ⟨rest, -, hs⟩ | ⟨rest, hh, hs⟩ <;> rw [hs]
    · exact .inr (.inr ⟨rfl, rfl, rfl, rfl, .inl rfl, .inl rfl⟩)
    · exact .inr (.inr (busEffect_of_takeAction _ _ _ (busOp_effect r _)))
    · exact .inr (.inr (busEffect_of_takeAction _ _ _ (pollStatus_effect _)))
    · exact .inr (.inl ⟨rest, hh, rfl⟩)

/-- Settles O42: a completion and a bus operation leave the parameter, and so does hardware reset. -/
theorem parameterNeverChanges : Obligations.ParameterNeverChanges := by
  intro s t h
  rcases step_effect s t h with ⟨i, -, hexec⟩ | ⟨rest, -, rfl⟩ | heffect
  · obtain ⟨u, hu, -, -, hparam, -⟩ := exec_common i s
    rw [hu] at hexec
    cases hexec
    exact hparam
  · simp
  · exact heffect.windowBytes

/-! ## The invariant -/

/-- Bytes written inside the window leave every entry inside it. -/
theorem writeBytes_inside (m : Memory) (windowBytes i : Nat) (bs : List Byte) (hm : ∀ c ∈ m, c.1 < windowBytes)
    (hi : i + bs.length ≤ windowBytes) : ∀ c ∈ m.writeBytes i bs, c.1 < windowBytes := by
  intro c hc
  rcases mem_writeBytes m i bs c hc with hnew | hold
  · omega
  · exact hm c hold

/-- An idle block with a freshly-seeded hash state, an unwritten window and no valid digest satisfies the invariant. -/
theorem inv_of_fresh (s : State) (hrange : Config.windowMin ≤ s.windowBytes ∧ s.windowBytes ≤ Config.windowMax)
    (hwindow : s.window = []) (hhash : s.hash = hashInit s.hash.seed) (hpending : s.pending = none)
    (hdvalid : s.dvalid = false) : s.Inv where
  paramRange := hrange
  windowCanonical := by rw [hwindow]; rfl
  windowInside := by simp [hwindow]
  hashAbsorbed := ⟨[], hhash⟩
  pendingLegal := by simp [hpending]
  digestCurrent := by simp [hdvalid]

/-- The reset table's hash state is the freshly-seeded one of seed 0 (R47, R122). -/
theorem reset_hash : State.reset.hash = hashInit 0#64 := by decide

/-- Settles O33: the reset table's hash state is freshly seeded, and nothing is written, pending or valid. -/
theorem invariantHoldsAfterReset : Obligations.InvariantHoldsAfterReset := by
  intro windowBytes draws actions hmin hmax
  exact inv_of_fresh _ ⟨hmin, hmax⟩ rfl reset_hash rfl rfl

/-- Hardware reset establishes the invariant. -/
theorem hwReset_inv (s : State) (hrange : Config.windowMin ≤ s.windowBytes ∧ s.windowBytes ≤ Config.windowMax) : s.hwReset.Inv :=
  inv_of_fresh _ hrange rfl (by simp) rfl rfl

/-- Every completion keeps the invariant: the hash state stays, is seeded afresh, or absorbs further bytes. -/
theorem exec_inv (i : Instr) (s t : State) (hs : s.Inv) (h : exec i s = .next t) : t.Inv := by
  rcases exec_cases i s t h with ⟨-, rfl⟩ | ⟨-, rfl⟩ | ⟨-, rfl⟩ | ⟨-, rfl⟩ | ⟨-, seed, d, rfl⟩ | ⟨count, bs, d, -, rfl⟩
  · exact { hs with pendingLegal := by simp }
  · exact { hs with pendingLegal := by simp }
  · have hroom : 0 + (beBytes64 (finalizeFn s.hash)).length ≤ s.windowBytes :=
      le_trans (by simp [Config.windowMin]) hs.paramRange.1
    exact { hs with
      windowCanonical := writeBytes_wf _ _ _ hs.windowCanonical
      windowInside := writeBytes_inside _ _ _ _ hs.windowInside hroom
      pendingLegal := by simp
      digestCurrent := fun _ => rfl }
  · exact { hs with hashAbsorbed := ⟨[], by simp⟩, pendingLegal := by simp, digestCurrent := by simp }
  · exact { hs with hashAbsorbed := ⟨[], by simp⟩, pendingLegal := by simp, digestCurrent := by simp }
  · obtain ⟨m, hm⟩ := hs.hashAbsorbed
    have hmore : absorbBytes s.hash bs = absorbBytes (hashInit (absorbBytes s.hash bs).seed) (m ++ bs) := by
      rw [absorbBytes_append, absorbBytes_seed, ← hm]
    exact { hs with hashAbsorbed := ⟨m ++ bs, hmore⟩, pendingLegal := by simp, digestCurrent := by simp }

/-- A host action other than hardware reset keeps the invariant. -/
theorem BusEffect.inv {s t : State} (h : BusEffect s t) (hs : s.Inv) : t.Inv where
  paramRange := h.windowBytes ▸ hs.paramRange
  windowCanonical := by
    rcases h.window with hw | ⟨i, bs, -, hw⟩ <;> rw [hw]
    · exact hs.windowCanonical
    · exact writeBytes_wf _ _ _ hs.windowCanonical
  windowInside := by
    rw [h.windowBytes]
    rcases h.window with hw | ⟨i, bs, hroom, hw⟩ <;> rw [hw]
    · exact hs.windowInside
    · exact writeBytes_inside _ _ _ _ hs.windowInside hroom
  hashAbsorbed := h.hash ▸ hs.hashAbsorbed
  pendingLegal := by
    intro i hi
    rw [h.windowBytes]
    rcases h.pending with hp | ⟨j, hj, hp⟩ <;> rw [hp] at hi
    · exact hs.pendingLegal i hi
    · cases hi
      exact hj
  digestCurrent := by
    rw [h.dvalid, h.digest, h.hash]
    exact hs.digestCurrent

/-- Settles O34: each of a completion, a hardware reset and another host action keeps the invariant. -/
theorem stepKeepsTheInvariant : Obligations.StepKeepsTheInvariant := by
  intro s t hs h
  rcases step_effect s t h with ⟨i, -, hexec⟩ | ⟨rest, -, rfl⟩ | heffect
  · exact exec_inv i s t hs hexec
  · exact hwReset_inv _ hs.paramRange
  · exact heffect.inv hs

/-- Every reachable state satisfies the invariant: it holds at reset, no part of it speaks of the host's queue, and every step keeps it. -/
theorem Reachable.inv {s : State} (h : Reachable s) : s.Inv := by
  induction h with
  | start windowBytes hrange => exact invariantHoldsAfterReset windowBytes 0 [] hrange.1 hrange.2
  | choose s actions _ ih => exact { ih with }
  | stepped s t _ hstep ih => exact stepKeepsTheInvariant s t ih hstep

/-! ## The byte count -/

/-- `State.CountInv` speaks of the hash state alone: R28 with R27's bound, as a predicate on it. -/
def HashState.Counted (h : HashState) : Prop :=
  h.tail.length ≤ 31 ∧ ∃ blocks : Nat,
    h.total = BitVec.ofNat 64 (h.tail.length + 32 * blocks) ∧ (h.large = true ↔ 1 ≤ blocks)

theorem countInv_iff (s : State) : s.CountInv ↔ s.hash.Counted := by
  simp only [State.CountInv, HashState.Counted, tailCnt_eq]

/-- No byte, no block. -/
theorem hashInit_counted (seed : Word) : (hashInit seed).Counted :=
  ⟨by simp, 0, by simp⟩

/-- ABSORB_BYTE adds a tail byte, or turns 31 tail bytes and its own into one more block (R170). -/
theorem absorbByte_counted (h : HashState) (b : Byte) (hc : h.Counted) : (absorbByte h b).Counted := by
  obtain ⟨hbound, blocks, htotal, hlarge⟩ := hc
  have hnext : h.total + 1#64 = BitVec.ofNat 64 (h.tail.length + 32 * blocks + 1) := by
    rw [htotal, ← BitVec.ofNat_add]
  rcases absorbByte_cases h b with ⟨hlen, e⟩ | ⟨hlen, e⟩ <;> rw [e]
  · exact ⟨by simp; omega, blocks, hnext.trans (congrArg (BitVec.ofNat 64) (by simp; omega)), hlarge⟩
  · exact ⟨by simp, blocks + 1, hnext.trans (congrArg (BitVec.ofNat 64) (by simp; omega)), by simp⟩

theorem absorbBytes_counted (h : HashState) (bs : List Byte) (hc : h.Counted) : (absorbBytes h bs).Counted := by
  induction bs generalizing h with
  | nil => exact hc
  | cons b bs ih => exact ih _ (absorbByte_counted h b hc)

/-- Settles O35: a step keeps the hash state, seeds it afresh, or absorbs bytes. -/
theorem stepKeepsTheByteCount : Obligations.StepKeepsTheByteCount := by
  intro s t hs h
  rw [countInv_iff] at hs ⊢
  rcases step_effect s t h with ⟨i, -, hexec⟩ | ⟨rest, -, rfl⟩ | heffect
  · rcases exec_cases i s t hexec with ⟨-, rfl⟩ | ⟨-, rfl⟩ | ⟨-, rfl⟩ | ⟨-, rfl⟩ | ⟨-, seed, d, rfl⟩ | ⟨count, bs, d, -, rfl⟩
    · exact hs
    · exact hs
    · exact hs
    · exact hashInit_counted _
    · exact hashInit_counted seed
    · exact absorbBytes_counted _ bs hs
  · exact hashInit_counted _
  · rw [heffect.hash]
    exact hs

/-- What m absorbed bytes leave in TOTAL, LARGE and TAIL (R25 to R28). -/
structure CountsOf (m : List Byte) (h : HashState) : Prop where
  total : h.total = BitVec.ofNat 64 m.length
  large : h.large = true ↔ 32 ≤ m.length
  tail : h.tail = m.drop (m.length - m.length % 32)

theorem CountsOf.tail_length {m : List Byte} {h : HashState} (hc : CountsOf m h) : h.tail.length = m.length % 32 := by
  have := Nat.mod_le m.length 32
  rw [hc.tail, List.length_drop]
  omega

/-- One more byte: it lengthens the tail, or completes a block of 32. -/
theorem absorbByte_countsOf (m : List Byte) (h : HashState) (b : Byte) (hc : CountsOf m h) :
    CountsOf (m ++ [b]) (absorbByte h b) := by
  have htotal : h.total + 1#64 = BitVec.ofNat 64 (m ++ [b]).length := by
    rw [hc.total, ← BitVec.ofNat_add, List.length_append, List.length_singleton]
  have hlen : (m ++ [b]).length = m.length + 1 := by simp
  have htail := hc.tail_length
  rcases absorbByte_cases h b with ⟨hne, e⟩ | ⟨hfull, e⟩ <;> rw [e]
  · refine ⟨htotal, hc.large.trans (by omega), ?_⟩
    have hcut : (m ++ [b]).length - (m ++ [b]).length % 32 = m.length - m.length % 32 := by omega
    rw [hcut, List.drop_append_of_le_length (by omega), hc.tail]
  · refine ⟨htotal, by simp; omega, ?_⟩
    rw [show (m ++ [b]).length % 32 = 0 by omega, Nat.sub_zero, List.drop_length]

theorem absorbBytes_countsOf (seed : Word) (m : List Byte) : CountsOf m (absorbBytes (hashInit seed) m) := by
  induction m using List.reverseRecOn with
  | nil => exact ⟨rfl, by simp, rfl⟩
  | append_singleton m b ih =>
    rw [absorbBytes_append]
    exact absorbByte_countsOf m _ b ih

/-- Settles O30, by induction on the bytes, the last one absorbed last. -/
theorem absorbedBytesAreCounted : Obligations.AbsorbedBytesAreCounted := by
  intro seed m
  have hc := absorbBytes_countsOf seed m
  exact ⟨absorbBytes_seed _ m, absorbBytes_acc5 _ m, hc.total, hc.large, hc.tail_length, hc.tail⟩

/-! ## Who writes the hash state, ACC5, DIGEST and DVALID -/

/-- The arm of FINALIZE (R166). -/
theorem exec_finalize (s : State) : exec .finalize s =
    .next { s with digest := finalizeFn s.hash, window := storeDigest s.window (finalizeFn s.hash), dvalid := true,
                   pending := none, delay := 0 } := rfl

/-- In the small regime FINALIZE starts from ACC5 (R131). -/
theorem finalizeFn_small (h : HashState) (hl : h.large = false) :
    finalizeFn h = avalanche (tailProcess (h.acc5 + h.total) h.tail) := by
  simp [finalizeFn, regimeAcc, hl]

/-- A step that changes the hash state completes an INIT, a RESET or a CONSUME, or is a hardware reset (R20). -/
theorem step_hash_changed (s t : State) (h : step s = .next t) (hne : t.hash ≠ s.hash) :
    (s.pending = some .init ∧ exec .init s = .next t) ∨
    (s.pending = some .reset ∧ exec .reset s = .next t ∧ t.hash = hashInit s.hash.seed) ∨
    (∃ count bs, s.pending = some (.consume count) ∧ exec (.consume count) s = .next t ∧ t.hash = absorbBytes s.hash bs) ∨
    (∃ rest, s.host = .hwReset :: rest ∧ t.hash = hashInit 0#64) := by
  rcases step_effect s t h with ⟨i, hp, hexec⟩ | ⟨rest, hhost, rfl⟩ | heffect
  · rcases exec_cases i s t hexec with ⟨-, rfl⟩ | ⟨-, rfl⟩ | ⟨-, rfl⟩ | ⟨rfl, ht⟩ | ⟨rfl, -⟩ | ⟨count, bs, d, rfl, ht⟩
    · exact absurd (complete_hash s) hne
    · exact absurd (complete_hash _) hne
    · exact absurd rfl hne
    · exact .inr (.inl ⟨hp, hexec, by simp [ht]⟩)
    · exact .inl ⟨hp, hexec⟩
    · exact .inr (.inr (.inl ⟨count, bs, hp, hexec, by rw [ht]⟩))
  · exact .inr (.inr (.inr ⟨rest, hhost, by simp⟩))
  · exact absurd heffect.hash hne

/-- Settles O38: RESET and CONSUME keep SEED, so of the writers of the hash state only INIT and hardware reset are left. -/
theorem onlyReseedsAndConsumeWriteTheHashState : Obligations.OnlyReseedsAndConsumeWriteTheHashState := by
  refine fun s t h => ⟨fun hne => ?hash, fun hne => ?seed⟩
  case hash =>
    rcases step_hash_changed s t h hne with ⟨hp, he⟩ | ⟨hp, he, -⟩ | ⟨count, bs, hp, he, -⟩ | hreset
    · exact .inl ⟨_, hp, he, .inl rfl⟩
    · exact .inl ⟨_, hp, he, .inr (.inl rfl)⟩
    · exact .inl ⟨_, hp, he, .inr (.inr ⟨count, rfl⟩)⟩
    · exact .inr hreset
  case seed =>
    rcases step_hash_changed s t h (fun e => hne (by rw [e])) with hinit | ⟨-, -, e⟩ | ⟨count, bs, -, -, e⟩ | ⟨rest, hh, e⟩
    · exact .inl hinit
    · exact absurd (by rw [e, hashInit_seed]) hne
    · exact absurd (by rw [e, absorbBytes_seed]) hne
    · exact .inr ⟨rest, hh, by rw [e, hashInit_seed]⟩

/-- Under the invariant ACC5 is SEED + PRIME64_5, as the seeding left it (R24). -/
theorem State.Inv.acc5 {s : State} (hs : s.Inv) : s.hash.acc5 = s.hash.seed + prime5 := by
  obtain ⟨m, hm⟩ := hs.hashAbsorbed
  rw [hm]
  simp

/-- Settles O36: absorption keeps ACC5, so of the writers of the hash state only the reseedings are left. -/
theorem acc5IsSeedPlusPrime5 : Obligations.Acc5IsSeedPlusPrime5 := by
  refine ⟨fun s hs => hs.inv.acc5, hashInit_acc5, fun s t h hne => ?writers, fun s hl => ⟨_, exec_finalize s, finalizeFn_small _ hl⟩⟩
  case writers =>
    rcases step_hash_changed s t h (fun e => hne (by rw [e])) with hinit | ⟨hp, he, -⟩ | ⟨count, bs, -, -, e⟩ | ⟨rest, hh, e⟩
    · exact .inl hinit
    · exact .inr (.inl ⟨hp, he⟩)
    · exact absurd (by rw [e, absorbBytes_acc5]) hne
    · exact .inr (.inr ⟨rest, hh, by rw [e, hashInit_acc5, BitVec.zero_add, prime5]⟩)

/-- Settles O39: among the completions only FINALIZE's writes DIGEST, and no host action but hardware reset does. -/
theorem onlyFinalizeAndResetWriteTheDigest : Obligations.OnlyFinalizeAndResetWriteTheDigest := by
  refine ⟨fun s => ⟨_, exec_finalize s, rfl⟩, hwReset_digest, fun s t h hne => ?writers⟩
  rcases step_effect s t h with ⟨i, hp, hexec⟩ | ⟨rest, hhost, rfl⟩ | heffect
  · rcases exec_cases i s t hexec with ⟨-, rfl⟩ | ⟨-, rfl⟩ | ⟨rfl, -⟩ | ⟨-, rfl⟩ | ⟨-, seed, d, rfl⟩ | ⟨count, bs, d, -, rfl⟩
    · exact absurd (complete_digest s) hne
    · exact absurd (complete_digest _) hne
    · exact .inl ⟨hp, hexec⟩
    · exact absurd (by simp) hne
    · exact absurd rfl hne
    · exact absurd rfl hne
  · exact .inr ⟨rest, hhost, hwReset_digest _⟩
  · exact absurd heffect.digest hne

/-- Settles O37: each completion by its own equation, and the current DIGEST by the invariant of reachable states. -/
theorem dvalidMeansDigestIsCurrent : Obligations.DvalidMeansDigestIsCurrent := by
  refine fun s => ⟨⟨_, exec_finalize s, rfl⟩, ?init, ⟨_, rfl, ?reset⟩, fun count => ?consume, ⟨_, rfl, ?nop⟩, ⟨_, rfl, ?clrerr⟩,
    hwReset_dvalid s, fun hs => hs.inv.digestCurrent⟩
  case init =>
    obtain ⟨bs, d, -, -, h⟩ := execInit_spec s
    exact ⟨_, h, rfl⟩
  case consume =>
    obtain ⟨bs, d, -, -, h⟩ := execConsume_spec count s
    exact ⟨_, h, rfl⟩
  all_goals simp

/-! ## Hardware reset -/

/-- LANE_INIT(0), the lanes of the reset table (R47). -/
theorem laneInit_zero :
    laneInit 0#64 = ⟨0x60EA27EEADC0B5D6#64, 0xC2B2AE3D27D4EB4F#64, 0#64, 0x61C8864E7A143579#64⟩ := by decide

/-- Every flag that STATUS shows is 0 after hardware reset (R47). -/
theorem hwReset_status (s : State) : s.hwReset.status = 0#32 := by
  simp [State.status, packStatus, ErrCode.code]

/-- Settles O45: the host's step is then the hardware reset, and `hwReset`'s fields are the reset table's. -/
theorem hardwareResetGivesTheResetValues : Obligations.HardwareResetGivesTheResetValues := by
  intro s rest hhost hturn
  obtain ⟨-, hstep, -⟩ := stepIsEngineOrHost s
  refine ⟨_, hstep .hwReset rest hhost hturn, ?_⟩
  simp only [hostAct, hwReset_status]
  simp [laneInit_zero, prime5, Memory.read]

/-! ## Register reads, BUSY = 0 -/

theorem mem_allRegs (r : Reg) : r ∈ allRegs := by
  cases r with
  | seed h => cases h <;> decide
  | total h => cases h <;> decide
  | digest h => cases h <;> decide
  | acc5 h => cases h <;> decide
  | v i h => revert i; cases h <;> decide
  | tailw k => revert k; decide
  | _ => decide

/-- What holds of every row of the register map holds of every register. -/
theorem forall_reg {P : Reg → Prop} (h : ∀ r ∈ allRegs, P r) (r : Reg) : P r := h r (mem_allRegs r)

/-- The register at a register's own offset is that register: no two share one (R36). -/
theorem regAt_regOffset (r : Reg) : regAt (regOffset r) = some r := by
  revert r
  exact forall_reg (by decide)

/-- Register offsets are 4-aligned, below 0x080, and none is a gap of R45. -/
theorem regOffset_range (r : Reg) : regOffset r % 4 = 0 ∧ regOffset r < 0x080 ∧
    regOffset r ≠ 0x014 ∧ regOffset r ≠ 0x038 ∧ regOffset r ≠ 0x03C := by
  revert r
  exact forall_reg (by decide)

/-- A read that takes no draw answers the register's value and changes only the response (R203). -/
theorem busOp_readReg_of_eq (s : State) (d : Word) (off : Nat) (v : HalfWord) (h4 : off % 4 = 0) (hlt : off < 0x1000)
    (h : s.readReg off = (v, s)) :
    busOp ⟨BitVec.ofNat 32 off, false, 4#4, d⟩ s = { s with rsp := some ⟨v.zeroExtend 64, false⟩ } := by
  rw [busOp_regRead s d off h4 hlt, h, State.respond]

/-- With BUSY = 0 a read of a register answers its value (R203). -/
theorem busOp_readReg_idle (s : State) (d : Word) (r : Reg) (hp : s.pending = none) :
    busOp ⟨BitVec.ofNat 32 (regOffset r), false, 4#4, d⟩ s =
      { s with rsp := some ⟨(s.regValue r).zeroExtend 64, false⟩ } := by
  obtain ⟨h4, hlt, -⟩ := regOffset_range r
  exact busOp_readReg_of_eq s d _ _ h4 (by omega) (readReg_idle s _ r hp (regAt_regOffset r))

/-- A read of a register that is not drawn while BUSY = 1 answers its value at any time (R49). -/
theorem busOp_readReg_constant (s : State) (d : Word) (r : Reg) (hr : ∀ drawn, s.busyRegValue drawn r = none) :
    busOp ⟨BitVec.ofNat 32 (regOffset r), false, 4#4, d⟩ s =
      { s with rsp := some ⟨(s.regValue r).zeroExtend 64, false⟩ } := by
  obtain ⟨h4, hlt, -⟩ := regOffset_range r
  refine busOp_readReg_of_eq s d _ _ h4 (by omega) ?_
  simp only [State.readReg, regAt_regOffset, hr, ite_self]

/-- Settles O46: each read is that of one row of the register map. -/
theorem registerReadsGiveTheirRegisters : Obligations.RegisterReadsGiveTheirRegisters := by
  intro s d
  refine ⟨⟨busOp_readReg_constant s d .id fun _ => rfl, busOp_readReg_constant s d .winsize fun _ => rfl,
    busOp_readReg_constant s d .winbase fun _ => rfl⟩, fun hp => ?idle⟩
  have hread := fun r => busOp_readReg_idle s d r hp
  exact ⟨hread .cmd, hread (.seed .lo), hread (.seed .hi), hread (.total .lo), hread (.total .hi), hread (.digest .lo),
    hread (.digest .hi), hread (.acc5 .lo), hread (.acc5 .hi), hread (.v 0 .lo), hread (.v 0 .hi), hread (.v 1 .lo),
    hread (.v 1 .hi), hread (.v 2 .lo), hread (.v 2 .hi), hread (.v 3 .lo), hread (.v 3 .hi)⟩

/-- Byte j of TAILW[k] (R44). -/
theorem tailWord_byte (t : List Byte) (k j : Nat) (hj : j < 4) :
    (tailWord t k).extractLsb' (8 * j) 8 = t.getD (4 * k + j) 0#8 := by
  rw [tailWord, extract_ofNat_leNat 32 _ j (by omega)]
  simp [List.getD_eq_getElem?_getD, hj]

/-- Settles O47: the read is that of `Reg.tailw k`, whose bytes are the tail's, 0 past its end. -/
theorem tailRegistersShowTheTail : Obligations.TailRegistersShowTheTail := by
  intro s d k hp hk
  refine ⟨tailWord s.hash.tail k, busOp_readReg_idle s d (.tailw ⟨k, hk⟩) hp, fun j hj => ?_⟩
  rw [tailWord_byte _ _ _ hj]
  split_ifs with hin
  · exact List.getD_eq_getElem _ _ hin
  · exact List.getD_eq_default _ _ (by omega)

/-! ## STATUS -/

/-- STATUS as a number: its fields side by side (R31). -/
theorem packStatus_toNat (err : BitVec 4) (tailCnt : BitVec 5) (dvalid large busy : Bool) :
    (packStatus err tailCnt dvalid large busy).toNat =
      busy.toNat + 2 * large.toNat + 4 * dvalid.toNat + 8 * tailCnt.toNat + 256 * err.toNat := by
  simp only [packStatus, append_toNat, BitVec.toNat_ofBool, BitVec.toNat_ofNat]
  omega

/-- Settles O48: the five-bit field holds a TAIL_CNT of at most 31. -/
theorem statusShowsTheFlags : Obligations.StatusShowsTheFlags := by
  refine fun s d hbound => ⟨?value, busOp_readReg_idle s d .status⟩
  have hfield : (BitVec.ofNat 5 s.tailCnt).toNat = s.tailCnt := by
    rw [BitVec.toNat_ofNat, Nat.mod_eq_of_lt (by omega)]
  rw [State.status, packStatus_toNat, hfield]
  simp only [Bool.toNat, Bool.cond_eq_ite]

/-! ## Reserved offsets, and reads while BUSY = 1 -/

/-- The gaps of the register map hold no register (R45). -/
theorem regAt_reserved (off : Nat) (h : off = 0x014 ∨ off = 0x038 ∨ off = 0x03C ∨ 0x080 ≤ off) : regAt off = none := by
  rw [regAt, List.find?_eq_none]
  intro r _ heq
  have hoff : regOffset r = off := by simpa using heq
  obtain ⟨-, hlt, h14, h38, h3c⟩ := regOffset_range r
  omega

/-- A reserved offset reads 0 and takes no draw, whatever BUSY (R45; log entry 7). -/
theorem readReg_reserved (s : State) (off : Nat) (h : regAt off = none) : s.readReg off = (0#32, s) := by
  rw [State.readReg, h]

/-- Settles O49: a reserved offset holds no register, and only CMD takes a write. -/
theorem reservedAndReadOnlyOffsetsAreHarmless : Obligations.ReservedAndReadOnlyOffsetsAreHarmless := by
  refine fun s d off h4 hlt => ⟨fun hres => ?read, fun hne => ?write⟩
  case read => exact busOp_readReg_of_eq s d off 0#32 h4 hlt (readReg_reserved s off (regAt_reserved off hres))
  case write => rw [busOp_regWrite s d off h4 hlt, if_neg hne, State.respond]

/-- The fields of STATUS that a read while BUSY = 1 defines (R49). -/
theorem busyStatus_fields (err : ErrCode) (drawn : HalfWord) : (busyStatus err drawn).getLsbD 0 = true ∧
    (busyStatus err drawn).extractLsb' 8 4 = err.code ∧ (busyStatus err drawn).extractLsb' 12 20 = 0#20 := by
  refine ⟨?busy, ?err, ?zeros⟩
  case busy =>
    simp only [busyStatus, BitVec.getLsbD_append]
    simp
  all_goals
    apply BitVec.eq_of_getLsbD_eq
    intro k hk
    simp only [busyStatus, BitVec.getLsbD_extractLsb', BitVec.getLsbD_append]
  case err => simp [hk, show ¬ (8 + k < 1) by omega]
  case zeros => simp [hk, show ¬ (11 + k < 7) by omega, show ¬ (11 + k - 7 < 4) by omega]

/-- While BUSY = 1 a read of STATUS gives its defined fields and a draw (R49, R203). -/
theorem readReg_status_busy (s : State) (hp : s.pending ≠ none) :
    (s.readReg 0x008).1 = busyStatus s.err (Config.freeReg s.draws) := by
  have hbusy : s.busy = true := by simpa [State.busy, Option.isSome_iff_ne_none] using hp
  rw [State.readReg, show regAt 0x008 = some .status from regAt_regOffset .status]
  simp only [hbusy, if_true, State.busyRegValue]

/-- Settles O50: a register read changes only the count of draws, and STATUS has its defined fields. -/
theorem registerReadsWhileBusy : Obligations.RegisterReadsWhileBusy := by
  intro s d off hp h4 hlt
  obtain ⟨n, hdraws⟩ := readReg_spec s off
  refine ⟨(s.readReg off).1, n, by rw [busOp_regRead s d off h4 hlt, hdraws, State.respond], ?_⟩
  rintro rfl
  rw [readReg_status_busy s hp]
  exact busyStatus_fields s.err _

end Sys2Proof.Machine
end

section
/-! PROOFS. The statements of 20_memory.md: who changes a window byte, that a pending command is left alone, what a bad access
gives, and what window writes and reads store and answer. -/

namespace Sys2Proof.Machine

/-! ## What a change by a bus operation tells of it -/

/-- A bus operation that changes ERR was refused (R262). -/
theorem busOp_err_changed (r : BusReq) (s : State) (h : (busOp r s).err ≠ s.err) : (busOp r s).rsp = some ⟨0#64, true⟩ := by
  rcases busOp_cases r s with ⟨c, -, e⟩ | ⟨v, d, e⟩ | ⟨-, -, i, -, e⟩ | ⟨-, -, -, -, -, e⟩ <;> rw [e] at h ⊢
  · exact raise_rsp s c
  · exact absurd rfl h
  · exact absurd rfl h
  · exact absurd rfl h

/-- An access to another address than CMD submits no command (R45, R202). -/
theorem busOp_pending_of_not_cmd (r : BusReq) (s : State) (h : r.addr.toNat ≠ 0x004) : (busOp r s).pending = s.pending := by
  unfold busOp
  split_ifs with hreg hwin
  · unfold regOp
    split_ifs with hbad hwe
    · exact raise_pending s .bus
    · rw [regWrite32, if_neg (by simpa [regBase, regOffset] using h), respond_pending]
    · obtain ⟨d, hd⟩ := readReg_spec s (r.addr.toNat - regBase)
      rw [regRead32, respond_pending, hd]
  · rcases winOp_cases r s with ⟨c, -, e⟩ | ⟨v, d, e⟩ | ⟨-, -, e⟩ <;> rw [e]
    · exact raise_pending s c
    · exact respond_pending _ v
    · exact respond_pending _ 0#64
  · exact raise_pending s .bus

/-- A bus operation that changes PENDING is a write to CMD with BUSY = 0, and leaves the window (R73). -/
theorem busOp_pending_changed (r : BusReq) (s : State) (h : (busOp r s).pending ≠ s.pending) :
    r.we = true ∧ s.busy = false ∧ r.addr = 0x00000004#32 ∧ (busOp r s).window = s.window := by
  have hcmd : r.addr = 0x00000004#32 := by
    by_contra hother
    exact h (busOp_pending_of_not_cmd r s fun e => hother (BitVec.eq_of_toNat_eq e))
  rcases busOp_cases r s with ⟨c, -, e⟩ | ⟨v, d, e⟩ | ⟨hwe, hidle, i, -, e⟩ | ⟨-, -, -, -, -, e⟩ <;> rw [e] at h ⊢
  · exact absurd (raise_pending s c) h
  · exact absurd rfl h
  · exact ⟨hwe, hidle, hcmd, rfl⟩
  · exact absurd rfl h

/-- A bus operation that changes the window is a WIN_WRITE with BUSY = 0 (R73). -/
theorem busOp_window_changed (r : BusReq) (s : State) (h : (busOp r s).window ≠ s.window) :
    r.we = true ∧ s.busy = false ∧ winBase ≤ r.addr.toNat ∧ busOp r s =
      { s with window := storeWindow s.window (r.addr.toNat - winBase) r.size.toNat r.wdata }.respond 0#64 := by
  rcases busOp_cases r s with ⟨c, -, e⟩ | ⟨v, d, e⟩ | ⟨-, -, i, -, e⟩ | ⟨hwe, hidle, -, hlow, -, e⟩
  · exact absurd (by rw [e, raise_window]) h
  · exact absurd (by rw [e, respond_window]) h
  · exact absurd (by rw [e, respond_window]) h
  · exact ⟨hwe, hidle, hlow, e⟩

/-- What a window store leaves in each byte (R64, R204). -/
theorem read_storeWindow (m : Memory) (i n : Nat) (v : Word) (a : Nat) :
    (storeWindow m i n v).read a = if i ≤ a ∧ a < i + n then some (v.extractLsb' (8 * (a - i)) 8) else m.read a := by
  rw [storeWindow, read_writeBytes, leBytes_length]
  split_ifs with hin
  · exact leBytes_get n v _ (by omega)
  · rfl

/-- A window byte that a bus operation changes is one of the bytes of a write (R73). -/
theorem busOp_window_byte (r : BusReq) (s : State) (a : Nat) (h : (busOp r s).window.read a ≠ s.window.read a) :
    r.we = true ∧ r.addr.toNat ≤ 0x00010000 + a ∧ 0x00010000 + a < r.addr.toNat + r.size.toNat := by
  obtain ⟨hwe, -, hlow, e⟩ := busOp_window_changed r s fun hsame => h (by rw [hsame])
  rw [e, respond_window, read_storeWindow] at h
  have hin := not_imp_comm.1 (fun hout => if_neg hout) h
  rw [winBase] at hin hlow
  exact ⟨hwe, by omega, by omega⟩

/-- A read leaves PENDING and the window (R73). -/
theorem busOp_read_frame (r : BusReq) (s : State) (hr : r.we = false) :
    (busOp r s).pending = s.pending ∧ (busOp r s).window = s.window := by
  rw [← Bool.not_eq_true] at hr
  exact ⟨not_imp_comm.1 (fun h => (busOp_pending_changed r s h).1) hr, not_imp_comm.1 (fun h => (busOp_window_changed r s h).1) hr⟩

/-- While a command is pending, a bus operation leaves PENDING and the window (R207). -/
theorem busOp_busy_frame (r : BusReq) (s : State) (hp : s.pending ≠ none) :
    (busOp r s).pending = s.pending ∧ (busOp r s).window = s.window := by
  rw [ne_eq, ← not_busy_iff] at hp
  exact ⟨not_imp_comm.1 (fun h => (busOp_pending_changed r s h).2.1) hp, not_imp_comm.1 (fun h => (busOp_window_changed r s h).2.1) hp⟩

/-- Settles O54: what a change of ERR, of PENDING, of the window and of a byte of it tells of the operation. -/
theorem readsHaveNoSideEffect : Obligations.ReadsHaveNoSideEffect := by
  intro r s
  obtain ⟨hhash, hdigest, hdvalid, -⟩ := busOp_frame r s
  refine ⟨hhash, hdigest, hdvalid, busOp_err_changed r s, busOp_read_frame r s, fun h => ?pending, fun h => ?window,
    fun a h => (busOp_window_byte r s a h).2⟩
  case pending =>
    obtain ⟨hwe, -, hcmd, hwindow⟩ := busOp_pending_changed r s h
    exact ⟨hwe, hcmd, hwindow⟩
  case window =>
    obtain ⟨hwe, -, -, e⟩ := busOp_window_changed r s h
    rw [e]
    exact ⟨hwe, rfl, rfl⟩

/-! ## A pending command is left alone -/

/-- While a command is pending, a host action other than hardware reset leaves the command and all that it reads (R77). -/
theorem hostAct_busy_frame (a : HostAction) (s : State) (ha : a ≠ .hwReset) (hp : s.pending ≠ none) :
    (hostAct a s).pending = s.pending ∧ (hostAct a s).window = s.window ∧ (hostAct a s).hash = s.hash ∧
      (hostAct a s).digest = s.digest ∧ (hostAct a s).dvalid = s.dvalid := by
  cases a with
  | bus r =>
    obtain ⟨hpending, hwindow⟩ := busOp_busy_frame r s hp
    obtain ⟨hhash, hdigest, hdvalid, -⟩ := busOp_frame r s
    exact ⟨hpending, hwindow, hhash, hdigest, hdvalid⟩
  | wait =>
    obtain ⟨hpending, hwindow⟩ := busOp_busy_frame (rd32 (regOffset .status)) s hp
    obtain ⟨hhash, hdigest, hdvalid, -⟩ := busOp_frame (rd32 (regOffset .status)) s
    simp only [hostAct]
    rcases pollStatus_cases s with h | h <;> rw [h] <;> exact ⟨hpending, hwindow, hhash, hdigest, hdvalid⟩
  | hwReset => exact absurd rfl ha

/-- Settles O43: it is the host's turn, and its action takes place while the command is pending. -/
theorem pendingCommandIsUndisturbed : Obligations.PendingCommandIsUndisturbed := by
  intro s i a rest hp hdelay hhost ha
  obtain ⟨-, hstep, -⟩ := stepIsEngineOrHost s
  obtain ⟨hpending, hframe⟩ := hostAct_busy_frame a (takeAction s rest) ha (by simp [hp])
  exact ⟨_, hstep a rest hhost (.inr hdelay), hpending.trans hp, hframe⟩

/-! ## Who changes a window byte -/

/-- A poll is a read, and leaves the window. -/
theorem pollStatus_window (s : State) : (pollStatus s).window = s.window := by
  obtain ⟨-, hread⟩ := busOp_read_frame (rd32 (regOffset .status)) s rfl
  rcases pollStatus_cases s with h | h <;> rw [h] <;> exact hread

/-- A completion that changes a window byte is FINALIZE's, and the byte one of the first eight (R75). -/
theorem exec_window_byte (i : Instr) (s t : State) (a : Nat) (h : exec i s = .next t)
    (hne : t.window.read a ≠ s.window.read a) : i = .finalize ∧ a < 8 := by
  rcases exec_cases i s t h with ⟨-, rfl⟩ | ⟨-, rfl⟩ | ⟨hi, rfl⟩ | ⟨-, rfl⟩ | ⟨-, seed, d, rfl⟩ | ⟨count, bs, d, -, rfl⟩
  · simp at hne
  · simp at hne
  · refine ⟨hi, not_le.1 fun ha => hne ?_⟩
    rw [read_storeDigest, if_neg (by omega)]
  · simp at hne
  · exact absurd rfl hne
  · exact absurd rfl hne

/-- Settles O40: of the completions only FINALIZE's stores, and of the host's actions only a write or hardware reset changes the window. -/
theorem windowBytesChangeOnlyByWriteFinalizeOrReset : Obligations.WindowBytesChangeOnlyByWriteFinalizeOrReset := by
  intro s t a h hne
  rcases step_cases s t h with ⟨i, hp, -, hexec⟩ | ⟨-, rfl⟩
  · obtain ⟨rfl, ha⟩ := exec_window_byte i s t a hexec hne
    exact .inl ⟨hp, hexec, ha⟩
  · rcases hostStep_cases s with ⟨-, hs⟩ | ⟨r, rest, hhost, hs⟩ | ⟨rest, -, hs⟩ | ⟨rest, hhost, hs⟩ <;> rw [hs] at hne ⊢
    · exact absurd rfl hne
    · exact .inr (.inl ⟨r, rest, hhost, busOp_window_byte r (takeAction s rest) a hne⟩)
    · exact absurd (by rw [pollStatus_window, takeAction_window]) hne
    · exact .inr (.inr ⟨rest, hhost, rfl⟩)

/-! ## Bus errors -/

/-- An access that is neither an aligned 32-bit one in the register region nor a naturally aligned one of a legal width inside the window
is a bus error (R201). -/
theorem busOp_bad_access (r : BusReq) (s : State)
    (hreg : r.addr.toNat < 0x1000 → r.size.toNat ≠ 4 ∨ r.addr.toNat % 4 ≠ 0)
    (hwin : legalWidth r.size.toNat = true → 0x00010000 ≤ r.addr.toNat →
      r.addr.toNat + r.size.toNat ≤ 0x00010000 + s.windowBytes → (r.addr.toNat - 0x00010000) % r.size.toNat ≠ 0) :
    busOp r s = s.raise .bus := by
  unfold busOp
  split_ifs with hr hw
  · rw [regOp, if_pos (hreg ((inRegRegion_iff _).1 hr))]
  · obtain ⟨hlegal, hlow, hhigh⟩ := (inWindow_iff _ _ _).1 hw
    rw [winOp, if_pos]
    exact hwin hlegal hlow hhigh
  · rfl

/-- Settles O51: none of the three kinds of access is a legal one, and a bus error is `raise` of code 5. -/
theorem badAccessesAreBusErrors : Obligations.BadAccessesAreBusErrors := by
  refine ⟨rfl, ?_⟩
  intro s r addr n mapped hbad
  have herror : busOp r s = s.raise .bus := by
    refine busOp_bad_access r s (fun hreg => ?reg) (fun hlegal hlow hhigh => ?win)
    case reg =>
      rcases hbad with ⟨-, h⟩ | ⟨hlow, -⟩ | ⟨j, hj, hunmapped⟩
      · exact h
      · omega
      · by_contra hok
        exact hunmapped (.inl (by omega))
    case win =>
      rw [legalWidth_iff] at hlegal
      rcases hbad with ⟨hreg, -⟩ | ⟨-, -, hwidth | halign | hpast⟩ | ⟨j, hj, hunmapped⟩
      · omega
      · omega
      · exact halign
      · omega
      · exact absurd (.inr (by omega)) hunmapped
  rw [herror, State.raise, stickyErr]

/-! ## Window writes and reads -/

/-- A window read of written bytes answers their little-endian number and takes no draw (R205). -/
theorem busOp_winRead_written (s : State) (i : Nat) (bs : List Byte) (d : Word) (hp : s.pending = none)
    (hn : bs.length = 1 ∨ bs.length = 2 ∨ bs.length = 4 ∨ bs.length = 8) (ha : i % bs.length = 0)
    (hi : i + bs.length ≤ s.windowBytes) (hW : i < 2 ^ 32 - 0x00010000)
    (hbytes : ∀ j, j < bs.length → s.window.read (i + j) = bs[j]?) :
    busOp ⟨BitVec.ofNat 32 (0x00010000 + i), false, BitVec.ofNat 4 bs.length, d⟩ s =
      { s with rsp := some ⟨BitVec.ofNat 64 (leNat bs), false⟩ } := by
  rw [busOp_winRead s _ i d hp hn ha hi hW, State.loadWindow, readBytes_written s i bs hbytes, State.respond]

/-- Settles O55: the write is WIN_WRITE, and the read is one of the written bytes. -/
theorem windowWriteThenReadGivesTheValue : Obligations.WindowWriteThenReadGivesTheValue := by
  intro s n i v d hp hn ha hi hmax addr t
  have hW : i < 2 ^ 32 - 0x00010000 := by omega
  have ht : t = { s with window := storeWindow s.window i n v }.respond 0#64 := busOp_winWrite s n i v hp hn ha hi hW
  have hread : ∀ j, j < n → t.window.read (i + j) = some (v.extractLsb' (8 * j) 8) := by
    intro j hj
    rw [ht, respond_window, read_storeWindow, if_pos (by omega), Nat.add_sub_cancel_left]
  refine ⟨by rw [ht, State.respond], hread, fun a hout => ?outside, ?readBack⟩
  case outside =>
    rw [ht, respond_window, read_storeWindow, if_neg (by omega)]
  case readBack =>
    have hlen := leBytes_length n v
    have hpt : t.pending = none := by rw [ht, respond_pending, hp]
    have hparam : t.windowBytes = s.windowBytes := by rw [ht, respond_windowBytes]
    have hback := busOp_winRead_written t i (leBytes n v) d hpt (by rwa [hlen]) (by rwa [hlen]) (by rwa [hlen, hparam]) hW
      fun j hj => by rw [hlen] at hj; rw [hread j hj, leBytes_get n v j hj]
    rwa [hlen, leNat_leBytes] at hback

/-- Settles O56: the read is WIN_READ, whose value is the little-endian number of n bytes, the written ones among them in their places. -/
theorem windowReadIsLittleEndian : Obligations.WindowReadIsLittleEndian := by
  intro s n i d hp hn ha hi hmax
  obtain ⟨hlen, hwritten, k, hdraws⟩ := readBytes_spec s i n
  refine ⟨(s.loadWindow i n).1, k, ?answer, ?bound, fun j b hj hb => ?byte⟩
  case answer =>
    rw [busOp_winRead s n i d hp hn ha hi (by omega), State.loadWindow, hdraws, State.respond]
  case bound =>
    have hlt := leNat_lt (s.readBytes i n).1
    rw [hlen, pow256] at hlt
    rw [State.loadWindow, BitVec.toNat_ofNat]
    exact (Nat.mod_le _ _).trans_lt hlt
  case byte =>
    rw [State.loadWindow, extract_ofNat_leNat 64 _ j (by omega), List.getD_eq_getElem?_getD, hwritten j b hj hb, Option.getD_some]

/-! ## The digest in the window -/

/-- The little-endian number of the big-endian bytes is `bswap64` (R15). -/
theorem ofNat_leNat_beBytes64 (x : Word) : BitVec.ofNat 64 (leNat (beBytes64 x)) = bswap64 x := by
  rw [bswap64, le64, List.drop_zero, List.take_of_length_le (by rw [beBytes64_length])]

/-- Settles O57: FINALIZE stores the digest's big-endian bytes, and the read takes them as a little-endian number. -/
theorem digestIsBigEndianInTheWindow : Obligations.DigestIsBigEndianInTheWindow := by
  intro s t d hroom h
  rw [exec_finalize] at h
  injection h with ht
  have hstored : ∀ j, j < 8 → t.window.read j = (beBytes64 t.digest)[j]? := by
    intro j hj
    rw [← ht]
    exact (read_storeDigest _ _ j).trans (if_pos hj)
  have hp : t.pending = none := by rw [← ht]
  have hparam : 8 ≤ t.windowBytes := by rw [← ht]; exact hroom
  have hread := busOp_winRead_written t 0 (beBytes64 t.digest) d hp (by simp) (by simp) (by simpa using hparam) (by decide)
    fun j hj => by rw [Nat.zero_add]; exact hstored j hj
  rw [ofNat_leNat_beBytes64] at hread
  exact ⟨fun j hj => (hstored j hj).trans (beBytes64_get _ j hj), _, hread, fun j hj => bswap64_byte _ j hj, rfl⟩

end Sys2Proof.Machine
end

section
/-! PROOFS. The statements of 30_encoding.md: decoder and encoder are inverse to each other, the check order of R102 over the fields as
numbers, the opcode map's rows, the assembler's words, and refused command words. -/

namespace Sys2Proof.Machine

open Sys2Proof.Laws.EncodeFields (commandWord_fields)

/-! ## The fields of a word -/

@[simp] theorem opField_toNat (w : HalfWord) : (opField w).toNat = w.toNat / 2 ^ 28 := by
  have := w.isLt
  rw [opField, BitVec.extractLsb'_toNat, Nat.shiftRight_eq_div_pow]
  omega

@[simp] theorem rsvField_toNat (w : HalfWord) : (rsvField w).toNat = w.toNat / 2 ^ 24 % 16 := by
  rw [rsvField, BitVec.extractLsb'_toNat, Nat.shiftRight_eq_div_pow]

@[simp] theorem countField_toNat (w : HalfWord) : (countField w).toNat = w.toNat % 2 ^ 24 := by
  rw [countField, BitVec.extractLsb'_toNat, Nat.shiftRight_zero]

theorem opField_eq_iff (w : HalfWord) (op : BitVec 4) : opField w = op ↔ w.toNat / 2 ^ 28 = op.toNat := by
  rw [← BitVec.toNat_inj, opField_toNat]

theorem rsvField_eq_zero_iff (w : HalfWord) : rsvField w = 0#4 ↔ w.toNat / 2 ^ 24 % 16 = 0 := by
  rw [← BitVec.toNat_inj, rsvField_toNat, BitVec.toNat_ofNat, Nat.zero_mod]

theorem countField_eq_iff (w : HalfWord) (count : BitVec 24) : countField w = count ↔ w.toNat % 2 ^ 24 = count.toNat := by
  rw [← BitVec.toNat_inj, countField_toNat]

/-- Two words with the same fields are equal: the fields cover the word (R90). -/
theorem word_ext_fields (v w : HalfWord) (hop : opField v = opField w) (hrsv : rsvField v = rsvField w)
    (hcount : countField v = countField w) : v = w := by
  rw [opField_eq_iff, opField_toNat] at hop
  rw [← BitVec.toNat_inj, rsvField_toNat, rsvField_toNat] at hrsv
  rw [countField_eq_iff, countField_toNat] at hcount
  apply BitVec.eq_of_toNat_eq
  omega

/-- A word is its fields put together (R90). -/
theorem commandWord_of_fields (w : HalfWord) : commandWord (opField w) (rsvField w) (countField w) = w := by
  obtain ⟨hop, hrsv, hcount⟩ := commandWord_fields (opField w) (rsvField w) (countField w)
  exact word_ext_fields _ _ hop hrsv hcount

/-- A word is a command's word when its fields are the command's OP, zero, and the command's COUNT. -/
theorem encode_eq_iff (i : Instr) (w : HalfWord) :
    encode i = w ↔ opField w = opOf i ∧ rsvField w = 0#4 ∧ countField w = countOf i := by
  constructor
  · rintro rfl
    exact commandWord_fields _ _ _
  · rintro ⟨hop, hrsv, hcount⟩
    rw [encode, ← hop, ← hrsv, ← hcount, commandWord_of_fields]

/-! ## The command that OP names -/

/-- Only CONSUME has an operand (R93). -/
theorem countOf_eq_zero (i : Instr) (h : opOf i ≠ 3#4) : countOf i = 0#24 := by
  cases i with
  | consume count => exact absurd rfl h
  | _ => rfl

/-- OP and COUNT of a command give the command back. -/
theorem instrOfOp_opOf (i : Instr) : instrOfOp (opOf i) (countOf i) = some i := by
  cases i <;> rfl

/-- An OP from 6 on selects no command (R95). -/
theorem instrOfOp_illegal (op : BitVec 4) (count : BitVec 24) (h : 6 ≤ op.toNat) : instrOfOp op count = none := by
  unfold instrOfOp
  split
  case h_7 => rfl
  all_goals omega

/-- An OP below 6 selects the command with that OP, CONSUME with the given COUNT (R93, R94). -/
theorem instrOfOp_legal (op : BitVec 4) (count : BitVec 24) (h : op.toNat < 6) :
    ∃ i, instrOfOp op count = some i ∧ opOf i = op ∧ (op = 3#4 → i = .consume count) := by
  have hop : op = 0#4 ∨ op = 1#4 ∨ op = 2#4 ∨ op = 3#4 ∨ op = 4#4 ∨ op = 5#4 := by bv_omega
  rcases hop with rfl | rfl | rfl | rfl | rfl | rfl <;> exact ⟨_, rfl, rfl, by simp⟩

/-! ## The decoder's checks, in their order -/

/-- The check of OP (R95). -/
theorem decode_illegalOp (windowBytes : Nat) (w : HalfWord) (h : 6 ≤ (opField w).toNat) :
    decode windowBytes w = .error .illegalOp := by
  rw [decode, instrOfOp_illegal _ _ h]

/-- Past the check of OP, the further checks are on the command that OP selects (R96). -/
theorem decode_of_instr (windowBytes : Nat) (w : HalfWord) (i : Instr) (h : instrOfOp (opField w) (countField w) = some i) :
    decode windowBytes w =
      if rsvField w ≠ 0#4 then .error .reservedNonzero
      else if opField w ≠ 3#4 ∧ countField w ≠ 0#24 then .error .reservedNonzero
      else if i.wf windowBytes = false then .error .countRange
      else .ok i := by
  rw [decode, h]

/-- The checks of RSV, and of COUNT where there is no operand (R96). -/
theorem decode_reservedNonzero (windowBytes : Nat) (w : HalfWord) (hop : (opField w).toNat < 6)
    (h : rsvField w ≠ 0#4 ∨ (opField w ≠ 3#4 ∧ countField w ≠ 0#24)) :
    decode windowBytes w = .error .reservedNonzero := by
  obtain ⟨i, hi, -⟩ := instrOfOp_legal _ (countField w) hop
  rw [decode_of_instr _ _ i hi]
  by_cases hrsv : rsvField w ≠ 0#4
  · rw [if_pos hrsv]
  · rw [if_neg hrsv, if_pos (h.resolve_left hrsv)]

/-- The check of CONSUME's COUNT (R96). -/
theorem decode_countRange (windowBytes : Nat) (w : HalfWord) (hop : opField w = 3#4) (hrsv : rsvField w = 0#4)
    (h : windowBytes < (countField w).toNat) : decode windowBytes w = .error .countRange := by
  have hi : instrOfOp (opField w) (countField w) = some (.consume (countField w)) := by rw [hop]; rfl
  have hwf : (Instr.consume (countField w)).wf windowBytes = false := decide_eq_false (not_le.2 h)
  rw [decode_of_instr _ _ _ hi, if_neg (not_not.2 hrsv), if_neg fun hcount => hcount.1 hop, if_pos hwf]

/-- The word of a legal command passes every check. -/
theorem decode_encode (windowBytes : Nat) (i : Instr) (hwf : i.wf windowBytes = true) :
    decode windowBytes (encode i) = .ok i := by
  obtain ⟨hop, hrsv, hcount⟩ := (encode_eq_iff i _).1 rfl
  have hi : instrOfOp (opField (encode i)) (countField (encode i)) = some i := by
    rw [hop, hcount, instrOfOp_opOf]
  have hoperand : ¬ (opField (encode i) ≠ 3#4 ∧ countField (encode i) ≠ 0#24) := by
    rw [hop, hcount]
    exact fun ⟨hne, hnz⟩ => hnz (countOf_eq_zero i hne)
  rw [decode_of_instr _ _ i hi, if_neg (not_not.2 hrsv), if_neg hoperand, if_neg (by simp [hwf])]

/-- A word that passes every check is the word of the command it gives: no bit of it is left unread. -/
theorem encode_of_decode (windowBytes : Nat) (w : HalfWord) (i : Instr) (h : decode windowBytes w = .ok i) :
    encode i = w := by
  rcases le_or_gt 6 (opField w).toNat with hop | hop
  · rw [decode_illegalOp _ _ hop] at h
    cases h
  · obtain ⟨j, hj, hopj, hconsume⟩ := instrOfOp_legal _ (countField w) hop
    rw [decode_of_instr _ _ j hj] at h
    split_ifs at h with hrsv hcount hwf
    cases h
    refine (encode_eq_iff _ _).2 ⟨hopj.symm, not_not.1 hrsv, ?count⟩
    case count =>
      by_cases h3 : opField w = 3#4
      · rw [hconsume h3, countOf]
      · rw [not_not.1 fun hnz => hcount ⟨h3, hnz⟩, countOf_eq_zero i (hopj ▸ h3)]

/-- Decoder and encoder agree: the accepted words are exactly the words of the legal commands (R94, R102). -/
theorem decode_ok_iff (windowBytes : Nat) (w : HalfWord) (i : Instr) :
    decode windowBytes w = .ok i ↔ encode i = w ∧ i.wf windowBytes = true := by
  constructor
  · exact fun h => ⟨encode_of_decode windowBytes w i h, decode_ok_wf windowBytes w i h⟩
  · rintro ⟨rfl, hwf⟩
    exact decode_encode windowBytes i hwf

/-- Settles O1: the word's fields are the command's OP, zero and COUNT, and pass every check. -/
theorem decodeOfEncodeIsTheCommand : Obligations.DecodeOfEncodeIsTheCommand := decode_encode

/-- Settles O2: the checks pin down every field of an accepted word. -/
theorem encodeOfDecodeIsTheWord : Obligations.EncodeOfDecodeIsTheWord :=
  fun windowBytes w i => (decode_ok_iff windowBytes w i).1

/-- A word whose fields are those of a legal command decodes to it, the fields as numbers (R102). -/
theorem decode_of_fields (windowBytes : Nat) (w : HalfWord) (i : Instr) (hwf : i.wf windowBytes = true)
    (hop : w.toNat / 2 ^ 28 = (opOf i).toNat) (hrsv : w.toNat / 2 ^ 24 % 16 = 0)
    (hcount : w.toNat % 2 ^ 24 = (countOf i).toNat) : decode windowBytes w = .ok i :=
  (decode_ok_iff windowBytes w i).2 ⟨(encode_eq_iff i w).2
    ⟨(opField_eq_iff _ _).2 hop, (rsvField_eq_zero_iff _).2 hrsv, (countField_eq_iff _ _).2 hcount⟩, hwf⟩

/-- Settles O3: one check of the decoder for each of the first four clauses, the fields of a legal command for each of the others. -/
theorem decodeFollowsTheCheckOrder : Obligations.DecodeFollowsTheCheckOrder := by
  intro windowBytes w op rsv count
  refine ⟨fun hop => ?illegal, fun hop hrsv => ?rsv, fun hop _ h3 hcount => ?operand, fun hop hrsv hpast => ?past,
    decode_of_fields _ w .nop rfl, decode_of_fields _ w .init rfl, decode_of_fields _ w .reset rfl,
    fun hop hrsv hin => ?consume, decode_of_fields _ w .finalize rfl, decode_of_fields _ w .clrerr rfl⟩
  case illegal => exact decode_illegalOp _ _ (by rwa [opField_toNat])
  case rsv =>
    exact decode_reservedNonzero _ _ (by rwa [opField_toNat]) (.inl (mt (rsvField_eq_zero_iff w).1 hrsv))
  case operand =>
    exact decode_reservedNonzero _ _ (by rwa [opField_toNat])
      (.inr ⟨mt (opField_eq_iff w _).1 h3, mt (countField_eq_iff w _).1 hcount⟩)
  case past =>
    exact decode_countRange _ _ ((opField_eq_iff w _).2 hop) ((rsvField_eq_zero_iff w).2 hrsv) (by rwa [countField_toNat])
  case consume =>
    have hval : (BitVec.ofNat 24 count).toNat = count := by simp [count]
    exact decode_of_fields _ w (.consume _) (decide_eq_true (by rwa [hval])) hop hrsv hval.symm

/-- Settles O4, by evaluation of the decoder on each of the ten words. -/
theorem decodeWordsWrittenOut : Obligations.DecodeWordsWrittenOut := by
  unfold Obligations.DecodeWordsWrittenOut
  decide

/-! ## The opcode map -/

theorem commandWord_and (op rsv op' rsv' : BitVec 4) (count count' : BitVec 24) :
    commandWord op rsv count &&& commandWord op' rsv' count' = commandWord (op &&& op') (rsv &&& rsv') (count &&& count') := by
  rw [commandWord, commandWord, BitVec.and_append, BitVec.and_append, commandWord]

theorem opField_and (v w : HalfWord) : opField (v &&& w) = opField v &&& opField w := by
  rw [opField, BitVec.extractLsb'_and, opField, opField]

theorem rowOf_mem_opcodeMap (i : Instr) : rowOf i ∈ opcodeMap := by
  cases i <;> simp [rowOf, opcodeMap]

/-- A command's word selects the command's row; CONSUME's mask lets every COUNT pass (R94). -/
theorem encode_selects_rowOf (i : Instr) : encode i &&& (rowOf i).mask = (rowOf i).matchBits := by
  cases i with
  | consume count =>
    have hmasked := commandWord_and 3#4 0#4 15#4 15#4 count 0#24
    rw [BitVec.and_zero] at hmasked
    exact hmasked
  | _ => decide

/-- Every mask covers OP (R94). -/
theorem opField_mask : ∀ row ∈ opcodeMap, opField row.mask = BitVec.allOnes 4 := by decide

/-- No two rows of the map match on the same OP (R94). -/
theorem row_eq_of_opField : ∀ p ∈ opcodeMap, ∀ q ∈ opcodeMap, opField p.matchBits = opField q.matchBits → p = q := by decide

/-- A word has the OP of a row it selects. -/
theorem opField_of_selected (w : HalfWord) (row : OpcodeRow) (hrow : row ∈ opcodeMap) (h : w &&& row.mask = row.matchBits) :
    opField row.matchBits = opField w := by
  rw [← h, opField_and, opField_mask row hrow, BitVec.and_allOnes]

/-- Settles O5: an accepted word is its command's word, which selects the command's row, and the rows differ in OP. -/
theorem wordSelectsAtMostOneOpcodeRow : Obligations.WordSelectsAtMostOneOpcodeRow := by
  have haccepted : ∀ (windowBytes : Nat) (w : HalfWord) (i : Instr), decode windowBytes w = .ok i →
      rowOf i ∈ opcodeMap ∧ w &&& (rowOf i).mask = (rowOf i).matchBits := by
    intro windowBytes w i h
    rw [← encode_of_decode windowBytes w i h]
    exact ⟨rowOf_mem_opcodeMap i, encode_selects_rowOf i⟩
  refine ⟨haccepted, fun windowBytes w hnone => ?unmatched, fun w p q hp hq hwp hwq => ?unique⟩
  case unmatched =>
    cases h : decode windowBytes w with
    | error c => exact ⟨c, rfl⟩
    | ok i =>
      obtain ⟨hmem, hselects⟩ := haccepted windowBytes w i h
      exact absurd hselects (hnone _ hmem)
  case unique =>
    exact row_eq_of_opField p hp q hq ((opField_of_selected w p hp hwp).trans (opField_of_selected w q hq hwq).symm)

/-! ## The assembler -/

/-- CONSUME's word as the assembler puts it together (R99). -/
theorem encode_consume_ofNat (n : Nat) (h : n ≤ 16777215) :
    encode (.consume (BitVec.ofNat 24 n)) = 0x30000000#32 ||| BitVec.ofNat 32 n := by
  have hword : (0x30000000#32 ||| BitVec.ofNat 32 n).toNat = 0x30000000 + n := by
    rw [BitVec.toNat_or, BitVec.toNat_ofNat, BitVec.toNat_ofNat, Nat.mod_eq_of_lt (by omega : n < 2 ^ 32)]
    exact (Nat.two_pow_add_eq_or_of_lt (by omega : n < 2 ^ 24) 0x30).symm
  rw [encode_eq_iff, opField_eq_iff, rsvField_eq_zero_iff, countField_eq_iff, hword]
  simp only [opOf, countOf, BitVec.toNat_ofNat]
  omega

/-- `consume N` is CONSUME's word for an N in the range of COUNT and of the window, and is refused for any other (R99). -/
theorem asmCommand_consume (windowBytes n : Nat) : asmCommand (some windowBytes) .consume (some n) =
    if n ≤ 16777215 ∧ n ≤ windowBytes then some (encode (.consume (BitVec.ofNat 24 n))) else none := by
  split_ifs with h
  · rw [encode_consume_ofNat n h.1]
    exact if_pos (by simpa using h)
  · exact if_neg (by simpa using h)

/-- A command without operand is written by its mnemonic alone (R99). -/
theorem asmCommand_without_operand (windowBytes : Nat) (m : Mnemonic) (hm : m ≠ .consume) :
    ∃ i : Instr, i.wf windowBytes = true ∧ asmCommand (some windowBytes) m none = some (encode i) := by
  cases m with
  | consume => exact absurd rfl hm
  | nop => exact ⟨.nop, rfl, rfl⟩
  | init => exact ⟨.init, rfl, rfl⟩
  | reset => exact ⟨.reset, rfl, rfl⟩
  | finalize => exact ⟨.finalize, rfl, rfl⟩
  | clrerr => exact ⟨.clrerr, rfl, rfl⟩

/-- An operand on another mnemonic than `consume` is refused (R99). -/
theorem asmCommand_extra_operand (windowBytes : Nat) (m : Mnemonic) (n : Nat) (hm : m ≠ .consume) :
    asmCommand (some windowBytes) m (some n) = none := by
  cases m with
  | consume => exact absurd rfl hm
  | _ => rfl

/-- Every word of the assembler is the word of a legal command. -/
theorem asmCommand_some (windowBytes : Nat) (m : Mnemonic) (operand : Option Nat) (w : HalfWord)
    (h : asmCommand (some windowBytes) m operand = some w) : ∃ i, encode i = w ∧ i.wf windowBytes = true := by
  by_cases hm : m = .consume
  · subst hm
    cases operand with
    | none => cases h
    | some n =>
      rw [asmCommand_consume] at h
      split_ifs at h with hn
      have hval : (BitVec.ofNat 24 n).toNat = n := by rw [BitVec.toNat_ofNat, Nat.mod_eq_of_lt (by omega)]
      exact ⟨_, Option.some.inj h, decide_eq_true (hval.le.trans hn.2)⟩
  · cases operand with
    | none =>
      obtain ⟨i, hwf, hi⟩ := asmCommand_without_operand windowBytes m hm
      exact ⟨i, Option.some.inj (hi.symm.trans h), hwf⟩
    | some n => rw [asmCommand_extra_operand windowBytes m n hm] at h; cases h

/-- Every legal command has an assembler line. -/
theorem exists_asmCommand (windowBytes : Nat) (i : Instr) (hwf : i.wf windowBytes = true) :
    ∃ m operand, asmCommand (some windowBytes) m operand = some (encode i) := by
  cases i with
  | consume count =>
    refine ⟨.consume, some count.toNat, ?_⟩
    have hfield := count.isLt
    rw [asmCommand_consume, if_pos ⟨by omega, of_decide_eq_true hwf⟩, BitVec.ofNat_toNat, BitVec.setWidth_eq]
  | nop => exact ⟨.nop, none, rfl⟩
  | init => exact ⟨.init, none, rfl⟩
  | reset => exact ⟨.reset, none, rfl⟩
  | finalize => exact ⟨.finalize, none, rfl⟩
  | clrerr => exact ⟨.clrerr, none, rfl⟩

/-- Settles O6: the assembler's words and the accepted words are both the words of the legal commands. -/
theorem assembledCommandsAreAccepted : Obligations.AssembledCommandsAreAccepted := by
  intro windowBytes
  refine ⟨fun m operand w h => ?accepted, exists_asmCommand windowBytes, fun n hn => ?refused,
    asmCommand_extra_operand windowBytes⟩
  case accepted =>
    obtain ⟨i, hi⟩ := asmCommand_some windowBytes m operand w h
    exact ⟨i, (decode_ok_iff windowBytes w i).2 hi⟩
  case refused => rw [asmCommand_consume, if_neg (by omega)]

/-! ## Refused command words -/

/-- With BUSY = 0, a word that the decoder rejects changes only ERR, to the rejection's code if it held none, and the response (R160). -/
theorem busOp_cmdWrite_rejected (s : State) (w : HalfWord) (c : Reject) (hp : s.pending = none)
    (hd : decode s.windowBytes w = .error c) : busOp (cmdWrite w) s =
      { s with err := if s.err = .noError then errOfReject c else s.err, rsp := some ⟨0#64, true⟩ } := by
  rw [busOp_cmdWrite, accept_error w s c hp hd, State.raise, stickyErr]

/-- Settles O8: each of the three kinds of word is rejected by its check, and a rejected word is refused with the check's code. -/
theorem illegalAndReservedWordsRecordTheirCode : Obligations.IllegalAndReservedWordsRecordTheirCode := by
  refine ⟨rfl, rfl, rfl, fun s w hp => ?_⟩
  obtain ⟨hillegal, hrsv, hoperand, hpast, -⟩ := decodeFollowsTheCheckOrder s.windowBytes w
  refine ⟨fun hop => busOp_cmdWrite_rejected s w .illegalOp hp (hillegal hop), fun hop hreserved => ?reserved,
    fun hop hzero hcount => busOp_cmdWrite_rejected s w .countRange hp (hpast hop hzero hcount)⟩
  case reserved =>
    refine busOp_cmdWrite_rejected s w .reservedNonzero hp ?_
    by_cases hzero : w.toNat / 2 ^ 24 % 16 = 0
    · obtain ⟨h3, hcount⟩ := hreserved.resolve_left (not_not.2 hzero)
      exact hoperand hop hzero h3 hcount
    · exact hrsv hop hzero

end Sys2Proof.Machine
end

section
/-! PROOFS. The statements of 40_datapath.md: what a lane of CONSUME_BLOCK reads, the step order of TAIL_PROCESS, and what each regime of
FINALIZE_FN reads. -/

namespace Sys2Proof.Machine

/-! ## Lanes of CONSUME_BLOCK -/

/-- `le64(s, i)` reads only the bytes i to i+7 (R15). -/
theorem le64_congr (s t : List Byte) (i : Nat) (h : ∀ j, j < 8 → s[i + j]? = t[i + j]?) : le64 s i = le64 t i := by
  have hbytes : (s.drop i).take 8 = (t.drop i).take 8 := by
    refine List.ext_getElem? fun j => ?_
    by_cases hj : j < 8
    · simpa [List.getElem?_take, hj] using h j hj
    · simp [hj]
  rw [le64, le64, hbytes]

/-- CONSUME_BLOCK lane by lane: lane V[i+1] is ROUND of itself and of the block's word i (R123). -/
theorem laneOf_consumeBlock (l : Lanes) (blk : List Byte) (i : Fin 4) :
    laneOf (consumeBlock l blk) i = round (laneOf l i) (le64 blk (8 * i.val)) :=
  match i with
  | 0 | 1 | 2 | 3 => rfl

/-- Settles O21: a lane's result is ROUND of the lane and of its word, and the word reads only its own eight bytes. -/
theorem lanesAreIndependent : Obligations.LanesAreIndependent := by
  intro l m a b i _ _ hlane hword
  rw [laneOf_consumeBlock, laneOf_consumeBlock, hlane, le64_congr a b _ hword]

/-! ## The steps of TAIL_PROCESS -/

/-- While 8 bytes remain, the next step is TAIL8 (R129). -/
theorem tailProcess_of_eight_le (acc : Word) (t : List Byte) (h : 8 ≤ t.length) :
    tailProcess acc t = tailProcess (tail8 acc (le64 t 0)) (t.drop 8) := by
  have hsteps : t.length / 8 = (t.drop 8).length / 8 + 1 := by rw [List.length_drop]; omega
  rw [tailProcess, hsteps, tail8Steps, tailProcess, List.drop_drop, Nat.mul_succ, Nat.add_comm _ 8]

/-- Below 8 bytes there is no TAIL8 step (R129). -/
theorem tailProcess_of_lt_eight (acc : Word) (t : List Byte) (h : t.length < 8) : tailProcess acc t = tailRest acc t := by
  rw [tailProcess, Nat.div_eq_of_lt h, tail8Steps, Nat.mul_zero, List.drop_zero]

/-- Below 4 bytes only TAIL1 steps are left (R129). -/
theorem tailProcess_of_lt_four (acc : Word) (t : List Byte) (h : t.length < 4) : tailProcess acc t = tail1Steps acc t := by
  rw [tailProcess_of_lt_eight acc t (by omega), tailRest, if_neg (by omega)]

/-- From 4 to 7 bytes, the next step is TAIL4, and fewer than 4 bytes remain after it (R129). -/
theorem tailProcess_of_four_le (acc : Word) (t : List Byte) (h4 : 4 ≤ t.length) (h8 : t.length < 8) :
    tailProcess acc t = tailProcess (tail4 acc (le32 t 0)) (t.drop 4) := by
  have hrest : (t.drop 4).length < 4 := by rw [List.length_drop]; omega
  rw [tailProcess_of_lt_eight acc t h8, tailRest, if_pos h4, tailProcess_of_lt_four _ _ hrest]

/-- Below 4 bytes, the next step is TAIL1 of the next byte (R129). -/
theorem tailProcess_cons (acc : Word) (b : Byte) (rest : List Byte) (h : (b :: rest).length < 4) :
    tailProcess acc (b :: rest) = tailProcess (tail1 acc b) rest := by
  have hrest : rest.length < 4 := Nat.lt_of_succ_lt h
  rw [tailProcess_of_lt_four acc _ h, tailProcess_of_lt_four _ rest hrest, tail1Steps, List.foldl_cons, tail1Steps]

/-- Settles O22: one lemma per kind of step, by the number of bytes that remain. -/
theorem tailProcessTakesItsStepsInOrder : Obligations.TailProcessTakesItsStepsInOrder := by
  intro acc t _
  refine ⟨tailProcess_of_eight_le acc t, tailProcess_of_four_le acc t, fun b rest ht hlen => ?single, fun ht => ?empty⟩
  case single =>
    subst ht
    exact tailProcess_cons acc b rest hlen
  case empty =>
    subst ht
    exact tailProcess_of_lt_four acc [] (by decide)

/-! ## The regimes of FINALIZE_FN -/

/-- In the large regime FINALIZE starts from the merged lanes (R131). -/
theorem finalizeFn_large (h : HashState) (hl : h.large = true) :
    finalizeFn h = avalanche (tailProcess (mergeAll h.lanes + h.total) h.tail) := by
  rw [finalizeFn, regimeAcc, if_pos hl]

/-- Settles O23: each regime's formula names only its own registers, so the others drop out. -/
theorem regimesReadTheirOwnRegisters : Obligations.RegimesReadTheirOwnRegisters := by
  intro h seed acc5 l
  refine ⟨fun hl => ?small, fun hl => ?large, finalizeFn_small h, finalizeFn_large h⟩
  case small => rw [finalizeFn_small h hl, finalizeFn_small { h with seed := seed, lanes := l } hl]
  case large => rw [finalizeFn_large h hl, finalizeFn_large { h with seed := seed, acc5 := acc5 } hl]

end Sys2Proof.Machine
end

section
/-! PROOFS. The statements of 41_commands.md: acceptance of a command word, the completion of a pending command, what each command does and
leaves, the chunk form of CONSUME, and the laws of the streamed hash. -/

namespace Sys2Proof.Machine

/-! ## The arms without an operand -/

/-- The arm of NOP (R162). -/
theorem exec_nop (s : State) : exec .nop s = .next { s with pending := none, delay := 0 } := rfl

/-- The arm of RESET (R164). -/
theorem exec_reset (s : State) : exec .reset s =
    .next { s with hash := hashInit s.hash.seed, dvalid := false, pending := none, delay := 0 } := rfl

/-- The arm of CLRERR (R167). -/
theorem exec_clrerr (s : State) : exec .clrerr s = .next { s with err := .noError, pending := none, delay := 0 } := rfl

/-- The arm of INIT (R163). -/
theorem exec_init (s : State) : exec .init s = execInit s := rfl

/-- Settles O11: the arm of NOP. -/
theorem nopCompletesWithoutEffect : Obligations.NopCompletesWithoutEffect := exec_nop

/-- Settles O16: the arm of CLRERR. -/
theorem clrerrClearsOnlyTheError : Obligations.ClrerrClearsOnlyTheError := exec_clrerr

/-- Settles O13: the arm of RESET, LANE_INIT written out. -/
theorem resetReseedsWithTheHeldSeed : Obligations.ResetReseedsWithTheHeldSeed := by
  intro s
  rw [exec_reset, hashInit, laneInit, acc5Init, prime1, prime2, prime5]

/-! ## Acceptance -/

/-- REG_WRITE32 takes the low half of the write data (R202). -/
theorem extract_low_half (high low : BitVec 32) : (high ++ low).extractLsb' 0 32 = low := by
  refine BitVec.eq_of_getLsbD_eq fun i hi => ?_
  rw [BitVec.getLsbD_extractLsb', Nat.zero_add, BitVec.getLsbD_append]
  simp only [hi, decide_true, Bool.true_and, if_true]

/-- Settles O7: the write is ACCEPT of its low half, which looks at BUSY first and at the decoder then. -/
theorem commandWriteIsAcceptedOrRefused : Obligations.CommandWriteIsAcceptedOrRefused := by
  intro s w high write
  have haccept : busOp write s = accept w s := by
    have hcmd := busOp_regWrite s (high ++ w) 4 (by decide) (by decide)
    rwa [if_pos rfl, extract_low_half] at hcmd
  rw [haccept]
  refine ⟨fun hp => ?busy, fun hp c hd => ?rejected, fun hp i hd => ?accepted⟩
  case busy => rw [accept_busy w s hp, State.raise, stickyErr]
  case rejected => rw [accept_error w s c hp hd, State.raise, stickyErr]
  case accepted =>
    rw [accept_ok w s i hp hd, State.respond]
    exact ⟨_, _, rfl, rfl⟩

/-! ## The step that runs a command -/

theorem tableWord_toNat (w : HalfWord) : tableWord 32 w.toNat = w := by
  rw [tableWord, Nat.mod_eq_of_lt w.isLt, BitVec.ofNat_toNat, BitVec.setWidth_eq]

/-- A staged word that the decoder accepts stands in PENDING, its delay run out. -/
theorem withFetchWord_ok (s : State) (w : HalfWord) (i : Instr) (hd : decode s.windowBytes w = .ok i) :
    s.withFetchWord 32 w.toNat = { s with pending := some i, delay := 0 } := by
  rw [State.withFetchWord, tableWord_toNat, stageWord, hd]

/-- A staged word that the decoder rejects is the host's next CMD write. -/
theorem withFetchWord_error (s : State) (w : HalfWord) (c : Reject) (hd : decode s.windowBytes w = .error c) :
    s.withFetchWord 32 w.toNat = { s with pending := none, delay := 0, host := .bus (cmdWrite w) :: s.host } := by
  rw [State.withFetchWord, tableWord_toNat, stageWord, hd]

/-- With nothing pending, a step performs the CMD write that is the host's next action. -/
theorem step_cmdWrite (s : State) (w : HalfWord) (rest : List HostAction) (hp : s.pending = none)
    (hh : s.host = .bus (cmdWrite w) :: rest) : step s = .next (accept w (takeAction s rest)) := by
  rw [step_of_not_engineTurn s (engineTurn_of_pending_none s hp), hostStep_cons s _ rest hh, hostAct, busOp_cmdWrite]

/-- With nothing pending and a rejected word, that step refuses the write. -/
theorem step_cmdWrite_rejected (s : State) (w : HalfWord) (c : Reject) (rest : List HostAction) (hp : s.pending = none)
    (hh : s.host = .bus (cmdWrite w) :: rest) (hd : decode s.windowBytes w = .error c) :
    step s = .next ((takeAction s rest).raise (errOfReject c)) := by
  rw [step_cmdWrite s w rest hp hh, accept_error w (takeAction s rest) c hp hd]

/-- Settles O9: a staged command and an accepted one have the engine's turn, and a rejected word is a refused write. -/
theorem stepRunsTheDecodedCommand : Obligations.StepRunsTheDecodedCommand := by
  refine fun s w => ⟨fun i hd => ?staged, fun i hd hp hh => ?written, fun c hd => ?rejected⟩
  case staged =>
    rw [withFetchWord_ok s w i hd]
    exact step_of_engineTurn _ i rfl ((engineTurn_iff _).2 ⟨by simp, .inl rfl⟩)
  case written =>
    refine ⟨_, step_cmdWrite s w [] hp hh, ?_⟩
    rw [accept_ok w (takeAction s []) i hp hd]
    exact ⟨by simp, by simp, by simp, step_of_engineTurn _ i (by simp) ((engineTurn_iff _).2 ⟨by simp, .inr (by simp)⟩)⟩
  case rejected =>
    rw [withFetchWord_error s w c hd]
    refine ⟨_, step_cmdWrite_rejected _ w c s.host rfl rfl hd, ?_⟩
    simp [stickyErr]

/-! ## Completion of a pending command -/

/-- While a command is pending, a bus operation leaves its delay. -/
theorem busOp_busy_delay (r : BusReq) (s : State) (hp : s.pending ≠ none) : (busOp r s).delay = s.delay := by
  rw [ne_eq, ← not_busy_iff] at hp
  rcases busOp_cases r s with ⟨c, -, e⟩ | ⟨v, d, e⟩ | ⟨-, hidle, -⟩ | ⟨-, hidle, -⟩
  · rw [e, raise_delay]
  · rw [e, respond_delay]
  · exact absurd hidle hp
  · exact absurd hidle hp

/-- While a command is pending, a host action other than hardware reset leaves its delay. -/
theorem hostAct_busy_delay (a : HostAction) (s : State) (ha : a ≠ .hwReset) (hp : s.pending ≠ none) :
    (hostAct a s).delay = s.delay := by
  cases a with
  | bus r => exact busOp_busy_delay r s hp
  | wait =>
    have hread := busOp_busy_delay (rd32 (regOffset .status)) s hp
    rw [hostAct]
    rcases pollStatus_cases s with h | h <;> rw [h] <;> exact hread
  | hwReset => exact absurd rfl ha

/-- A host step while a command is pending uses up one of its delay, and leaves the command and its operands (R77). -/
theorem step_busy_host (s : State) (i : Instr) (n : Nat) (hp : s.pending = some i) (hdelay : s.delay = n + 1)
    (hhost : s.host ≠ []) (hreset : HostAction.hwReset ∉ s.host) :
    ∃ t, step s = .next t ∧ t.pending = some i ∧ t.hash = s.hash ∧ t.window = s.window ∧ t.delay = n ∧
      HostAction.hwReset ∉ t.host := by
  obtain ⟨a, rest, hcons⟩ := List.exists_cons_of_ne_nil hhost
  have ha : a ≠ .hwReset := fun e => hreset (by simp [hcons, e])
  have hbusy : (takeAction s rest).pending ≠ none := by simp [hp]
  obtain ⟨-, hstep, -⟩ := stepIsEngineOrHost s
  have hnext : step s = .next (hostAct a (takeAction s rest)) := hstep a rest hcons (.inr (by omega))
  obtain ⟨hpending, hwindow, hhash, -⟩ := hostAct_busy_frame a _ ha hbusy
  have hleft := hostAct_busy_delay a _ ha hbusy
  refine ⟨_, hnext, hpending.trans hp, hhash, hwindow, by rw [hleft, takeAction_delay, hdelay, Nat.add_sub_cancel], ?_⟩
  rw [step_host s _ hreset hnext]
  exact fun hmem => hreset (mem_actionsAfter _ _ _ hmem)

/-- On the engine's turn the pending command completes (R161). -/
theorem step_completes (s : State) (i : Instr) (hp : s.pending = some i) (hturn : s.delay = 0 ∨ s.host = []) :
    ∃ t, step s = exec i s ∧ exec i s = .next t ∧ t.pending = none := by
  obtain ⟨t, ht, hidle, -⟩ := exec_common i s
  exact ⟨t, step_of_engineTurn s i hp ((engineTurn_iff s).2 ⟨by simp [hp], hturn⟩), ht, hidle⟩

/-- Settles O44, by induction on the delay: each step before the engine's turn is the host's and uses up one of it. -/
theorem pendingCommandCompletes : Obligations.PendingCommandCompletes := by
  intro s i hp hreset
  induction hn : s.delay generalizing s with
  | zero =>
    obtain ⟨t, hlast⟩ := step_completes s i hp (.inl hn)
    exact ⟨0, s, t, le_refl 0, rfl, hp, rfl, rfl, hlast⟩
  | succ n ih =>
    by_cases hh : s.host = []
    · obtain ⟨t, hlast⟩ := step_completes s i hp (.inr hh)
      exact ⟨0, s, t, Nat.zero_le _, rfl, hp, rfl, rfl, hlast⟩
    · obtain ⟨v, hstep, hpv, hhash, hwindow, hdelay, hresetv⟩ := step_busy_host s i n hp hn hh hreset
      obtain ⟨k, u, t, hk, hrun, hpu, hhashu, hwindowu, hlast⟩ := ih v hpv hresetv hdelay
      exact ⟨1 + k, u, t, by omega, runSteps_add 1 k s v u (runSteps_one s v hstep) hrun, hpu, hhashu.trans hhash,
        hwindowu.trans hwindow, hlast⟩

/-! ## What each command does and leaves -/

/-- A given byte of INIT's operand is that byte of the seed (R66). -/
theorem seed_byte (bs : List Byte) (j : Nat) (b : Byte) (hj : j < 8) (hb : bs[j]? = some b) :
    (le64 bs 0).extractLsb' (8 * j) 8 = b := by
  rw [le64_byte bs 0 j hj, Nat.zero_add, List.getD_eq_getElem?_getD, hb, Option.getD_some]

/-- Settles O12: the seed's bytes are the operand's, the written ones among them in their places. -/
theorem initLoadsTheSeedAndReseeds : Obligations.InitLoadsTheSeedAndReseeds := by
  intro s
  obtain ⟨bs, d, -, hbytes, h⟩ := execInit_spec s
  refine ⟨_, (exec_init s).trans h, fun j b hj hb => ?seedByte, ?rest⟩
  case seedByte => exact seed_byte bs j b hj (hbytes j b hj hb)
  case rest => simp [laneInit, prime1, prime2, prime5]

/-- Settles O14: CONSUME's meaning, field by field. -/
theorem consumeAbsorbsTheWindowBytes : Obligations.ConsumeAbsorbsTheWindowBytes := by
  intro s count
  obtain ⟨bs, d, hlen, hbytes, h⟩ := execConsume_spec count s
  exact ⟨bs, _, (exec_consume count s).trans h, hlen, hbytes, by simp⟩

/-- Settles O15: FINALIZE's meaning, the stored bytes those of `be_bytes64`. -/
theorem finalizeWritesTheDigest : Obligations.FinalizeWritesTheDigest := by
  intro s
  refine ⟨_, exec_finalize s, rfl, fun j hj => ?stored, by simp⟩
  rw [read_storeDigest, if_pos hj, beBytes64_get _ j hj]

/-- Settles O18: only an index below 8 is stored to. -/
theorem finalizeFrame : Obligations.FinalizeFrame := by
  have hindices : ∀ a, a ∈ digestIndices ↔ a < 8 := fun a => List.mem_range
  refine ⟨hindices, fun s t h => ?_⟩
  rw [exec_finalize] at h
  injection h with ht
  subst ht
  refine ⟨fun a ha => ?outside, by simp⟩
  rw [read_storeDigest, if_neg (mt (hindices a).2 ha)]

/-- Absorption never clears LARGE (R26). -/
theorem absorbBytes_large (h : HashState) (bs : List Byte) (hl : h.large = true) : (absorbBytes h bs).large = true := by
  induction bs generalizing h with
  | nil => exact hl
  | cons b bs ih =>
    refine ih _ ?_
    rcases absorbByte_cases h b with ⟨-, e⟩ | ⟨-, e⟩ <;> rw [e]
    exact hl

/-- Settles O17: each completion but FINALIZE's leaves the window and all that it does not name. -/
theorem nonStoringCommandsFrame : Obligations.NonStoringCommandsFrame := by
  intro s t i hi h
  rcases exec_cases i s t h with ⟨rfl, rfl⟩ | ⟨rfl, rfl⟩ | ⟨rfl, -⟩ | ⟨rfl, rfl⟩ | ⟨rfl, seed, d, rfl⟩ | ⟨count, bs, d, rfl, rfl⟩
  · simp
  · simp
  · exact absurd rfl hi
  · simp
  · simp
  · simpa using absorbBytes_large s.hash bs

/-! ## The chunk form of CONSUME -/

/-- Settles O24: the two cases of ABSORB_BYTE, by the length of the tail. -/
theorem absorbByteConsumesFullBlocks : Obligations.AbsorbByteConsumesFullBlocks := by
  intro h b
  rcases absorbByte_cases h b with ⟨hlen, e⟩ | ⟨hlen, e⟩
  · exact ⟨fun _ => e, fun hfull => absurd hfull (by omega)⟩
  · exact ⟨fun hshort => absurd hshort (by omega), fun _ => e⟩

/-- The blocks of u one by one from the front are its blocks by their positions. -/
theorem consumeBlocks_eq_foldl (n : Nat) (l : Lanes) (u : List Byte) : consumeBlocks n l u =
    (List.range n).foldl (fun l k => consumeBlock l ((u.drop (32 * k)).take 32)) l := by
  induction n generalizing l u with
  | zero => rfl
  | succ n ih =>
    rw [consumeBlocks, ih, List.range_succ_eq_map, List.foldl_cons, List.foldl_map, Nat.mul_zero, List.drop_zero]
    simp only [List.drop_drop, Nat.mul_succ, Nat.add_comm 32]

/-- The chunk form takes the bytes that complete the next block, then the others with an empty tail. -/
theorem absorbChunk_block (h : HashState) (front rest : List Byte) (hfront : (h.tail ++ front).length = 32) :
    absorbChunk h (front ++ rest) =
      absorbChunk { h with lanes := consumeBlock h.lanes (h.tail ++ front), total := h.total + BitVec.ofNat 64 front.length,
                           large := true, tail := [] } rest := by
  have hbytes : h.tail ++ (front ++ rest) = h.tail ++ front ++ rest := (List.append_assoc ..).symm
  have hblocks : (h.tail ++ front ++ rest).length / 32 = rest.length / 32 + 1 := by
    rw [List.length_append, hfront]
    omega
  have htail : (h.tail ++ front ++ rest).drop (32 * (rest.length / 32 + 1)) = rest.drop (32 * (rest.length / 32)) := by
    rw [Nat.mul_succ, Nat.add_comm, ← List.drop_drop, List.drop_left' hfront]
  have htotal : h.total + BitVec.ofNat 64 (front ++ rest).length =
      h.total + BitVec.ofNat 64 front.length + BitVec.ofNat 64 rest.length := by
    rw [List.length_append, BitVec.ofNat_add, BitVec.add_assoc]
  simp only [absorbChunk, hbytes, hblocks, htail, htotal, consumeBlocks, List.take_left' hfront, List.drop_left' hfront,
    List.nil_append, Nat.le_add_left, decide_true, Bool.or_true, Bool.true_or]

/-- Absorption byte by byte is absorption of whole blocks, the remainder the new tail (R171), by induction on the number of blocks. -/
theorem absorbBytes_eq_absorbChunk (h : HashState) (bs : List Byte) (ht : h.tail.length ≤ 31) :
    absorbBytes h bs = absorbChunk h bs := by
  induction hn : (h.tail ++ bs).length / 32 generalizing h bs with
  | zero =>
    rw [List.length_append] at hn
    rw [absorbBytes_short h bs (by omega), absorbChunk, List.length_append, hn]
    simp [consumeBlocks]
  | succ n ih =>
    rw [List.length_append] at hn
    have hlen : (bs.take (32 - h.tail.length)).length = 32 - h.tail.length := by rw [List.length_take]; omega
    have hfull : h.tail.length + (bs.take (32 - h.tail.length)).length = 32 := by omega
    have hrest : (bs.drop (32 - h.tail.length)).length / 32 = n := by rw [List.length_drop]; omega
    have hne : bs.take (32 - h.tail.length) ≠ [] := List.ne_nil_of_length_pos (by omega)
    rw [← List.take_append_drop (32 - h.tail.length) bs, absorbBytes_append, absorbBytes_fill h _ hfull hne,
      absorbChunk_block h _ _ (by rw [List.length_append, hfull])]
    exact ih _ _ (Nat.zero_le _) hrest

/-- Settles O25: the arm of CONSUME on written bytes, and the chunk form of absorption. -/
theorem consumeIsItsChunkForm : Obligations.ConsumeIsItsChunkForm := by
  intro s count bs ht hlen hread u n
  rw [exec_consume, execConsume_written count s bs hlen hread, absorbBytes_eq_absorbChunk s.hash bs ht, absorbChunk,
    consumeBlocks_eq_foldl]

/-! ## The streamed hash -/

/-- Settles O26: the counters of the absorbed bytes choose the regime and the tail, and the lanes are those of the chunk form. -/
theorem streamedHashIsTheWholeMessageHash : Obligations.StreamedHashIsTheWholeMessageHash := by
  intro seed m
  have hc := absorbBytes_countsOf seed m
  refine ⟨fun hshort => ?small, fun hlong => ?large⟩
  case small =>
    have hsmall : (absorbBytes (hashInit seed) m).large = false :=
      Bool.eq_false_iff.2 fun hl => absurd (hc.large.1 hl) (by omega)
    have htail : m.length - m.length % 32 = 0 := by omega
    rw [xxh64, finalizeFn_small _ hsmall, absorbBytes_acc5, hashInit_acc5, prime5, hc.total, hc.tail, htail, List.drop_zero]
  case large =>
    have hlanes : (absorbBytes (hashInit seed) m).lanes = (List.range (m.length / 32)).foldl
        (fun l k => consumeBlock l ((m.drop (32 * k)).take 32)) (laneInit seed) := by
      rw [absorbBytes_eq_absorbChunk _ m (by simp), ← consumeBlocks_eq_foldl, absorbChunk, hashInit_tail, hashInit_lanes,
        List.nil_append]
    rw [xxh64, finalizeFn_large _ (hc.large.2 hlong), hlanes, hc.total, hc.tail]

/-- The hash of the empty input (R182). -/
theorem xxh64_nil (seed : Word) : xxh64 seed [] = avalanche (seed + 0x27D4EB2F165667C5#64) := by
  obtain ⟨hsmall, -⟩ := streamedHashIsTheWholeMessageHash seed []
  obtain ⟨-, -, -, hempty⟩ := tailProcessTakesItsStepsInOrder (seed + 0x27D4EB2F165667C5#64) [] (by simp)
  rw [hsmall (by simp), List.length_nil, BitVec.add_zero, hempty rfl]

/-- FINALIZE answers the digest of the hash state it finds (R166). -/
theorem exec_finalize_digest (s : State) : ∃ t, exec .finalize s = .next t ∧ t.digest = finalizeFn s.hash :=
  ⟨_, exec_finalize s, rfl⟩

/-- INIT with a written seed starts from LANE_INIT of that seed (R163). -/
theorem exec_init_written (s : State) (seed : Word)
    (hseed : ∀ j, j < 8 → s.window.read j = some (seed.extractLsb' (8 * j) 8)) :
    ∃ t, exec .init s = .next t ∧ t.hash = hashInit seed := by
  obtain ⟨bs, d, -, hbytes, h⟩ := execInit_spec s
  have hword : le64 bs 0 = seed := word_ext_bytes _ _ fun j hj => seed_byte bs j _ hj (hbytes j _ hj (hseed j hj))
  exact ⟨_, (exec_init s).trans h, congrArg hashInit hword⟩

/-- NOP, CLRERR and FINALIZE leave the hash state (R132, R162, R167). -/
theorem exec_quiet_hash (i : Instr) (s t : State) (hi : i = .nop ∨ i = .clrerr ∨ i = .finalize) (h : exec i s = .next t) :
    t.hash = s.hash := by
  rcases hi with rfl | rfl | rfl <;> injection h with ht <;> rw [← ht]
  · exact complete_hash s
  · exact complete_hash _
  · exact complete_hash _

/-- A run of completed commands absorbs its pieces, one after the other, into the hash state it starts from (R185). -/
theorem commandRun_hash (s u : State) (m : List Byte) (h : CommandRun s m u) : u.hash = absorbBytes s.hash m := by
  induction h with
  | none => rfl
  | bus m u r _ ih =>
    obtain ⟨hhash, -⟩ := busOp_frame r u
    exact hhash.trans ih
  | quiet m u v i hi _ hexec ih => exact (exec_quiet_hash i u v hi hexec).trans ih
  | consume m piece u v count hlen hread _ hexec ih =>
    rw [exec_consume, execConsume_written count u piece hlen hread] at hexec
    injection hexec with hv
    rw [← hv, absorbBytes_append, ← ih]

/-- Settles O27: the run ends in the absorption of all its pieces into the freshly-seeded hash state. -/
theorem digestOfPiecesIsDigestOfTheWhole : Obligations.DigestOfPiecesIsDigestOfTheWhole := by
  intro s0 s u seed m hstart hrun
  have hfresh : s.hash = hashInit seed := by
    rcases hstart with ⟨hreset, rfl⟩ | ⟨hinit, hseed⟩
    · rw [exec_reset] at hreset
      injection hreset with hs
      rw [← hs]
    · obtain ⟨t, ht, hhash⟩ := exec_init_written s0 seed hseed
      rw [hinit] at ht
      injection ht with hs
      rw [hs, hhash]
  obtain ⟨v, hv, hdigest⟩ := exec_finalize_digest u
  exact ⟨v, hv, by rw [hdigest, commandRun_hash s u m hrun, hfresh, xxh64]⟩

/-- Settles O28: a run that absorbs nothing keeps the hash state, which FINALIZE left as it was. -/
theorem finalizeIsNonDestructive : Obligations.FinalizeIsNonDestructive := by
  intro s t u h hrun
  have hhash : t.hash = s.hash := exec_quiet_hash .finalize s t (.inr (.inr rfl)) h
  obtain ⟨t', ht', hdigest⟩ := exec_finalize_digest s
  obtain rfl : t = t' := Host.Outcome.next.inj (h.symm.trans ht')
  obtain ⟨v, hv, hagain⟩ := exec_finalize_digest u
  exact ⟨hhash, v, hv, by rw [hagain, commandRun_hash t u [] hrun, absorbBytes_nil, hhash, hdigest]⟩

/-- Settles O29: both commands start afresh, and FINALIZE then answers the hash of no byte. -/
theorem resetAndInitRestoreTheEmptyDigest : Obligations.ResetAndInitRestoreTheEmptyDigest := by
  refine ⟨fun s => ?reset, fun s seed hseed => ?init, xxh64_nil⟩
  case reset =>
    obtain ⟨t, ht, hhash⟩ : ∃ t, exec .reset s = .next t ∧ t.hash = hashInit s.hash.seed := ⟨_, exec_reset s, rfl⟩
    obtain ⟨u, hu, hdigest⟩ := exec_finalize_digest t
    exact ⟨t, u, ht, hu, by rw [hdigest, hhash, xxh64, absorbBytes_nil]⟩
  case init =>
    obtain ⟨t, ht, hhash⟩ := exec_init_written s seed hseed
    obtain ⟨u, hu, hdigest⟩ := exec_finalize_digest t
    exact ⟨t, u, ht, hu, by rw [hdigest, hhash, xxh64, absorbBytes_nil]⟩

end Sys2Proof.Machine
end

section
/-! PROOFS. The statement of 42_host_bus.md: what the bus answers while a command is pending. -/

namespace Sys2Proof.Machine

/-- While BUSY = 1 an aligned access to the window region, a read or a write, is WIN_BUSY (R201, R207). -/
theorem winOp_busy (r : BusReq) (s : State) (hp : s.pending ≠ none)
    (haligned : (r.addr.toNat - winBase) % r.size.toNat = 0) : winOp r s = s.raise .winBusy := by
  have hbusy : s.busy = true := (busy_iff s).2 (Option.ne_none_iff_exists'.1 hp)
  rw [winOp, if_neg (not_not_intro haligned), if_pos hbusy]

/-- A 32-bit request, its address written as a number: the form of REG_WRITE32 and REG_READ32 (R202, R203). -/
theorem request32_eq (r : BusReq) (hn : r.size.toNat = 4) : r = ⟨BitVec.ofNat 32 r.addr.toNat, r.we, 4#4, r.wdata⟩ := by
  have hsize : r.size = 4#4 := BitVec.eq_of_toNat_eq hn
  rw [BitVec.ofNat_toNat, BitVec.setWidth_eq, ← hsize]

/-- While BUSY = 1 a 32-bit write to CMD is CMD_BUSY, whatever its word (R160, R207). -/
theorem busOp_cmd_busy (r : BusReq) (s : State) (hp : s.pending ≠ none) (haddr : r.addr.toNat = 0x004)
    (hn : r.size.toNat = 4) (hwe : r.we = true) : busOp r s = s.raise .cmdBusy := by
  rw [request32_eq r hn, haddr, hwe, busOp_regWrite s _ 4 (by decide) (by decide), if_pos rfl, accept_busy _ s hp]

/-- Settles O52: dispatch refuses the window access at BUSY and acceptance the command word; the register read is O50's. -/
theorem accessesWhileBusyAreRefused : Obligations.AccessesWhileBusyAreRefused := by
  refine ⟨rfl, rfl, fun s r hp => ⟨fun hwidth hlow hhigh haligned => ?window, fun haddr hn hwe => ?command,
    fun hlt hn haligned hread => ?read⟩⟩
  case window =>
    rw [busOp_window r s ((legalWidth_iff _).2 hwidth) hlow hhigh, winOp_busy r s hp haligned, State.raise, stickyErr]
  case command => rw [busOp_cmd_busy r s hp haddr hn hwe, State.raise, stickyErr]
  case read =>
    obtain ⟨v, d, hanswer, -⟩ := registerReadsWhileBusy s r.wdata r.addr.toNat hp haligned hlt
    rw [request32_eq r hn, hread]
    exact ⟨_, d, hanswer⟩

end Sys2Proof.Machine
end

section
/-! PROOFS. The statements of 45_host_adapter.md: the seed of the material, the digest formats, and HOST_HASH run step by step. -/

namespace Sys2Proof.Machine

/-! ## DERIVE_SEED -/

theorem elementByte_toNat (b : Byte) : elementByte (.integer b.toNat) = some b := by
  have hb := b.isLt
  rw [elementByte, if_pos (by omega), Int.toNat_natCast, BitVec.ofNat_toNat, BitVec.setWidth_eq]

theorem elementByte_outside (x : Int) (hx : x < 0 ∨ 255 < x) : elementByte (.integer x) = none :=
  if_neg (by omega)

/-- Elements that are bytes give those bytes. -/
theorem materialBytes_of_bytes (m : List Byte) : materialBytes (m.map fun b => .integer b.toNat) = some m := by
  induction m with
  | nil => rfl
  | cons b m ih => rw [List.map_cons, materialBytes, elementByte_toNat, ih]

/-- One element that is no byte, wherever it stands, spoils the material (R230). -/
theorem deriveSeed_of_bad_element (m : List SeedElement) (e : SeedElement) (he : e ∈ m) (hbad : elementByte e = none) :
    deriveSeed m = none := by
  have hnone : materialBytes m = none := by
    induction m with
    | nil => cases he
    | cons x xs ih =>
      rw [materialBytes]
      rcases List.mem_cons.1 he with rfl | htail
      · rw [hbad]
      · rw [ih htail]
        cases elementByte x <;> rfl
  rw [deriveSeed, hnone, Option.map_none]

/-- Byte k of the XOR-fold that starts at position i: the accumulator's byte k, and after it in order the material bytes at the positions
that are k modulo 8 (R230). -/
theorem foldSeedBytes_getElem? (i k : Nat) (a m : List Byte) : (foldSeedBytes i a m)[k]? =
    a[k]?.map fun x => ((List.range m.length).filter fun j => (i + j) % 8 == k).foldl (fun y j => y ^^^ m.getD j 0#8) x := by
  induction m generalizing i a with
  | nil => simp [foldSeedBytes]
  | cons b m ih =>
    have hshift : ∀ j, i + 1 + j = i + (j + 1) := by omega
    rw [foldSeedBytes, ih, List.getElem?_modify, List.length_cons, List.range_succ_eq_map, List.filter_cons, List.filter_map]
    by_cases hk : i % 8 = k <;> simp [hk, List.foldl_map, Function.comp_def, hshift]

/-- Settles O58: the seed's bytes are those of the fold from eight zero bytes, and a bad element leaves no material. -/
theorem seedMaterialIsXorFolded : Obligations.SeedMaterialIsXorFolded := by
  refine ⟨fun m => ⟨_, by rw [deriveSeed, materialBytes_of_bytes, Option.map_some], fun k hk => ?folded⟩,
    fun m x hmem hx => deriveSeed_of_bad_element m _ hmem (elementByte_outside x hx),
    fun m hmem => deriveSeed_of_bad_element m _ hmem rfl⟩
  case folded =>
    rw [le64_byte _ _ _ hk, List.getD_eq_getElem?_getD, Nat.zero_add, foldSeedBytes_getElem?, List.getElem?_replicate, if_pos hk]
    simp only [Nat.zero_add, Option.map_some, Option.getD_some]

/-! ## The digest formats -/

/-- A raw byte is its digit of the bigint value, base 256 (R236). -/
theorem bigintForm_byte (d : Word) (j : Nat) (hj : j < 8) :
    bigintForm d / 256 ^ j % 256 = (d.extractLsb' (56 - 8 * j) 8).toNat := by
  rw [← bswap64_byte d j hj, BitVec.extractLsb'_toNat, Nat.shiftRight_eq_div_pow, bigintForm, pow256]

theorem rawForm_eq (d : Word) : rawForm d = (List.range 8).map fun j => d.extractLsb' (56 - 8 * j) 8 := rfl

/-- Digit k of the hex form is the digit of its four bits (R236). -/
theorem hexForm_getElem? (d : Word) (k : Nat) (hk : k < 16) :
    (hexForm d)[k]? = some (hexDigit ((bswap64 d).extractLsb' (60 - 4 * k) 4)) := by
  simp [hexForm, nibbles, hk]

/-- The sixteen lowercase hexadecimal digits in order. -/
theorem hexDigit_eq (x : BitVec 4) : some (hexDigit x) =
    ['0', '1', '2', '3', '4', '5', '6', '7', '8', '9', 'a', 'b', 'c', 'd', 'e', 'f'][x.toNat]? := by
  revert x
  decide

/-- Four bits of a word, as a base-16 digit of its number. -/
theorem nibble_toNat (x : Word) (k : Nat) (hk : k < 16) :
    (x.extractLsb' (60 - 4 * k) 4).toNat = x.toNat / 16 ^ (15 - k) % 16 := by
  have hpow : 16 ^ (15 - k) = 2 ^ (60 - 4 * k) := by
    rw [show 60 - 4 * k = 4 * (15 - k) by omega, pow_mul]
    norm_num
  rw [BitVec.extractLsb'_toNat, Nat.shiftRight_eq_div_pow, hpow]

/-- Four bits inside a byte of a word. -/
theorem nibble_of_byte (x : Word) (start offset : Nat) (h : offset + 4 ≤ 8) :
    (x.extractLsb' start 8).extractLsb' offset 4 = x.extractLsb' (start + offset) 4 := by
  refine BitVec.eq_of_getLsbD_eq fun i hi => ?_
  simp [hi, show offset + i < 8 by omega, Nat.add_assoc]

/-- The two hex digits at 2j are those of raw byte 7-j, high half first (R236). -/
theorem hexForm_byte (d : Word) (j : Nat) (b : Byte) (hj : j < 8) (hb : (rawForm d)[7 - j]? = some b) :
    (hexForm d)[2 * j]? = some (hexDigit (b.extractLsb' 4 4)) ∧ (hexForm d)[2 * j + 1]? = some (hexDigit (b.extractLsb' 0 4)) := by
  have hbyte : b = (bswap64 d).extractLsb' (56 - 8 * j) 8 := by
    rw [rawForm, beBytes64_get d _ (by omega), Option.some.injEq] at hb
    rw [← hb, ← bswap64_byte d _ (by omega), show 8 * (7 - j) = 56 - 8 * j by omega]
  have hhigh : 60 - 4 * (2 * j) = 56 - 8 * j + 4 := by omega
  have hlow : 60 - 4 * (2 * j + 1) = 56 - 8 * j + 0 := by omega
  rw [hexForm_getElem? d _ (by omega), hexForm_getElem? d _ (by omega), hbyte, nibble_of_byte _ _ 4 (by decide),
    nibble_of_byte _ _ 0 (by decide), hhigh, hlow]
  exact ⟨rfl, rfl⟩

/-- Settles O59: each form is read off the bytes of `bswap64`, and FINALIZE stores the raw ones. -/
theorem digestFormatsAgree : Obligations.DigestFormatsAgree := by
  refine ⟨fun d => ⟨rawForm_eq d, ?bound, bigintForm_byte d, ?length, fun k hk => ?digit⟩, hexForm_byte, fun d => ?rendered, rfl,
    fun s t h j hj => ?stored⟩
  case bound => exact (bswap64 d).isLt
  case length => simp [hexForm, nibbles]
  case digit => rw [hexForm_getElem? d k hk, hexDigit_eq, nibble_toNat _ k hk, bigintForm]
  case rendered => simp only [render, bswap64_bswap64, and_self]
  case stored =>
    rw [exec_finalize] at h
    injection h with ht
    subst ht
    exact (read_storeDigest _ _ j).trans (if_pos hj)

/-! ## Runs of host actions -/

/-- Finitely many steps lead from s to t. -/
def Runs (s t : State) : Prop := ∃ k, runSteps k s = .next t

theorem Runs.refl (s : State) : Runs s s := ⟨0, rfl⟩

theorem Runs.of_step {s t : State} (h : step s = .next t) : Runs s t := ⟨1, runSteps_one s t h⟩

theorem Runs.trans {s t u : State} (hst : Runs s t) (htu : Runs t u) : Runs s u := by
  obtain ⟨j, hj⟩ := hst
  obtain ⟨k, hk⟩ := htu
  exact ⟨j + k, runSteps_add j k s t u hj hk⟩

/-- s and t are the same block but for a command pending, the host's queue and the response: what neither the acceptance of a legal word
nor a poll changes (R160, R232). -/
structure SameBlock (s t : State) : Prop where
  hash : t.hash = s.hash
  digest : t.digest = s.digest
  dvalid : t.dvalid = s.dvalid
  err : t.err = s.err
  window : t.window = s.window
  windowBytes : t.windowBytes = s.windowBytes

theorem SameBlock.refl (s : State) : SameBlock s s := ⟨rfl, rfl, rfl, rfl, rfl, rfl⟩

theorem SameBlock.trans {s t u : State} (hst : SameBlock s t) (htu : SameBlock t u) : SameBlock s u where
  hash := htu.hash.trans hst.hash
  digest := htu.digest.trans hst.digest
  dvalid := htu.dvalid.trans hst.dvalid
  err := htu.err.trans hst.err
  window := htu.window.trans hst.window
  windowBytes := htu.windowBytes.trans hst.windowBytes

theorem sameBlock_takeAction (s : State) (rest : List HostAction) : SameBlock s (takeAction s rest) := ⟨rfl, rfl, rfl, rfl, rfl, rfl⟩

/-- The block stands idle, exactly `rest` left to the host. -/
structure IdleWith (rest : List HostAction) (s : State) : Prop where
  pending : s.pending = none
  host : s.host = rest

/-- With nothing pending, a step is the host's next action. -/
theorem IdleWith.step {a : HostAction} {rest : List HostAction} {s : State} (h : IdleWith (a :: rest) s) :
    step s = .next (hostAct a (takeAction s rest)) := by
  rw [step_of_not_engineTurn s (engineTurn_of_pending_none s h.pending), hostStep_cons s a rest h.host]

/-- With nothing pending, the host's next bus operation takes one step. -/
theorem IdleWith.runs_bus {r : BusReq} {rest : List HostAction} {s t : State} (h : IdleWith (.bus r :: rest) s)
    (ht : busOp r (takeAction s rest) = t) : Runs s t :=
  .of_step (h.step.trans (congrArg Host.Outcome.next ht))

/-! ## One command and its wait -/

/-- Only CLRERR writes ERR at its completion (R266). -/
theorem exec_err (i : Instr) (s t : State) (hi : i ≠ .clrerr) (h : exec i s = .next t) : t.err = s.err := by
  rcases exec_cases i s t h with ⟨-, rfl⟩ | ⟨hclr, -⟩ | ⟨-, rfl⟩ | ⟨-, rfl⟩ | ⟨-, seed, d, rfl⟩ | ⟨count, bs, d, -, rfl⟩
  · exact complete_err s
  · exact absurd hclr hi
  · rfl
  · rw [complete_err, reseed_err]
  · rfl
  · rfl

/-- STATUS shows BUSY in bit 0 (R31). -/
theorem status_busyBit (s : State) : ((s.regValue .status).zeroExtend 64 : Word).getLsbD 0 = s.busy := by
  have hmod : (s.regValue .status).toNat % 2 = s.busy.toNat := by
    have hle := s.busy.toNat_le
    rw [State.regValue, State.status, packStatus_toNat]
    omega
  rw [BitVec.zeroExtend, BitVec.getLsbD_setWidth, BitVec.getLsbD, Nat.testBit_zero, hmod]
  cases s.busy <;> rfl

/-- A STATUS read changes only the response and the count of draws, and answers BUSY in bit 0 (R31, R49). -/
theorem busOp_readStatus (s : State) : ∃ v d, busOp (rd32 (regOffset .status)) s = { s with draws := d }.respond v ∧
    v.getLsbD 0 = s.busy := by
  by_cases hp : s.pending = none
  · exact ⟨_, s.draws, busOp_readReg_idle s 0#64 .status hp, status_busyBit s⟩
  · obtain ⟨d, hd⟩ := readReg_spec s (regOffset .status)
    obtain ⟨rsp, hrsp, hbit⟩ := status_read_busy s 0#64 hp
    have hread := (busOp_regRead s 0#64 (regOffset .status) (by decide) (by decide)).trans (by rw [hd])
    have hanswer : rsp = ⟨_, false⟩ := Option.some.inj (hrsp.symm.trans (congrArg State.rsp hread))
    have hbusy : s.busy = true := (busy_iff s).2 (Option.ne_none_iff_exists'.1 hp)
    exact ⟨_, d, hread, by rw [hbusy]; simpa [hanswer] using hbit⟩

/-- A poll leaves the block as it is, and is queued again exactly while BUSY = 1 (R232). -/
theorem pollStatus_frame (s : State) : SameBlock s (pollStatus s) ∧ (pollStatus s).pending = s.pending ∧
    (pollStatus s).delay = s.delay ∧ (pollStatus s).host = if s.busy then .wait :: s.host else s.host := by
  obtain ⟨v, d, hread, hbit⟩ := busOp_readStatus s
  have hhost := pollStatus_host s ⟨v, false⟩ (by rw [pollStatus_rsp, hread, respond_rsp])
  rw [hbit] at hhost
  obtain ⟨queue, hpoll⟩ : ∃ queue, pollStatus s = { { s with draws := d }.respond v with host := queue } := by
    rcases pollStatus_cases s with h | h <;> exact ⟨_, h.trans (by rw [hread])⟩
  rw [hpoll] at hhost ⊢
  exact ⟨⟨rfl, rfl, rfl, rfl, rfl, rfl⟩, rfl, rfl, hhost⟩

/-- A pending command completes on the block it was accepted in, the host polling until then (R161, R232), by induction on the delay. -/
theorem runs_pending (s : State) (i : Instr) (rest : List HostAction) (hp : s.pending = some i)
    (hh : s.host = .wait :: rest) : ∃ u t, SameBlock s u ∧ exec i u = .next t ∧ Runs s t ∧ IdleWith (.wait :: rest) t := by
  induction hn : s.delay generalizing s with
  | zero =>
    obtain ⟨t, ht, hidle, -, -, hhost, -⟩ := exec_common i s
    have hstep := step_of_engineTurn s i hp ((engineTurn_iff s).2 ⟨by simp [hp], .inl hn⟩)
    exact ⟨s, t, .refl s, ht, .of_step (hstep.trans ht), hidle, hhost.trans hh⟩
  | succ n ih =>
    have hturn : engineTurn s = false := by simp [engineTurn, hn, hh]
    have hstep : step s = .next (pollStatus (takeAction s rest)) := by
      rw [step_of_not_engineTurn s hturn, hostStep_cons s _ rest hh, hostAct]
    obtain ⟨hsame, hpending, hdelay, hhost⟩ := pollStatus_frame (takeAction s rest)
    have hrequeued : (pollStatus (takeAction s rest)).host = .wait :: rest := by
      rw [hhost, busy_eq, takeAction_pending, hp]
      rfl
    obtain ⟨u, t, hu, ht, hrun, hidle⟩ := ih _ (hpending.trans hp) hrequeued (by rw [hdelay, takeAction_delay, hn]; rfl)
    exact ⟨u, t, ((sameBlock_takeAction s rest).trans hsame).trans hu, ht, (Runs.of_step hstep).trans hrun, hidle⟩

/-- The word of a legal command is accepted: the command is pending, the rest of the block as before (R160). -/
theorem accept_encode (i : Instr) (s : State) (hp : s.pending = none) (hwf : i.wf s.windowBytes = true) :
    SameBlock s (accept (encode i) s) ∧ (accept (encode i) s).pending = some i ∧ (accept (encode i) s).host = s.host := by
  rw [accept_ok _ s i hp (decode_encode _ i hwf)]
  exact ⟨⟨rfl, rfl, rfl, rfl, rfl, rfl⟩, rfl, rfl⟩

/-- `sync` of a legal command: it completes on the block it found, and the wait ends (R101, R160, R161). -/
theorem runs_sync (s : State) (i : Instr) (rest : List HostAction) (h : IdleWith (syncWord (encode i) ++ rest) s)
    (hwf : i.wf s.windowBytes = true) :
    ∃ u v t, SameBlock s u ∧ exec i u = .next v ∧ SameBlock v t ∧ Runs s t ∧ IdleWith rest t := by
  have haccept : step s = .next (accept (encode i) (takeAction s (.wait :: rest))) :=
    step_cmdWrite s (encode i) _ h.pending h.host
  obtain ⟨hsame, hpending, hhost⟩ := accept_encode i (takeAction s (.wait :: rest)) h.pending hwf
  obtain ⟨u, v, hu, hv, hrun, hidle⟩ := runs_pending _ i rest hpending hhost
  obtain ⟨hlast, hlastPending, -, hlastHost⟩ := pollStatus_frame (takeAction v rest)
  rw [busy_eq, takeAction_pending, hidle.pending] at hlastHost
  exact ⟨u, v, _, ((sameBlock_takeAction s _).trans hsame).trans hu, hv, (sameBlock_takeAction v rest).trans hlast,
    ((Runs.of_step haccept).trans hrun).trans (.of_step hidle.step), hlastPending.trans hidle.pending, hlastHost⟩

/-! ## The parts of HOST_HASH -/

/-- From s the host gets through its queue as far as `rest`, and leaves an idle block with the hash state h, the parameter and ERR as they
were. -/
structure Advances (s : State) (rest : List HostAction) (h : HashState) (t : State) : Prop where
  run : Runs s t
  idle : IdleWith rest t
  hash : t.hash = h
  err : t.err = s.err
  windowBytes : t.windowBytes = s.windowBytes

theorem IdleWith.advances {rest : List HostAction} {s : State} (h : IdleWith rest s) : Advances s rest s.hash s :=
  ⟨.refl s, h, rfl, rfl, rfl⟩

theorem Advances.trans {s t u : State} {mid rest : List HostAction} {g h : HashState} (hst : Advances s mid g t)
    (htu : Advances t rest h u) : Advances s rest h u where
  run := hst.run.trans htu.run
  idle := htu.idle
  hash := htu.hash
  err := htu.err.trans hst.err
  windowBytes := htu.windowBytes.trans hst.windowBytes

/-- `sync` of a command whose completion leaves ERR brings the host past it (R101). -/
theorem advances_sync (s : State) (i : Instr) (rest : List HostAction) (h : IdleWith (syncWord (encode i) ++ rest) s)
    (hwf : i.wf s.windowBytes = true) (hi : i ≠ .clrerr) :
    ∃ u v t, SameBlock s u ∧ exec i u = .next v ∧ SameBlock v t ∧ Advances s rest v.hash t := by
  obtain ⟨u, v, t, hsu, hexec, hvt, hrun, hidle⟩ := runs_sync s i rest h hwf
  obtain ⟨v', hv', -, -, hparam, -⟩ := exec_common i u
  obtain rfl : v = v' := Host.Outcome.next.inj (hexec.symm.trans hv')
  exact ⟨u, v, t, hsu, hexec, hvt, hrun, hidle, hvt.hash, hvt.err.trans ((exec_err i u v hi hexec).trans hsu.err),
    hvt.windowBytes.trans (hparam.trans hsu.windowBytes)⟩

/-- Storing a byte as a one-byte value stores that byte. -/
theorem storeWindow_byte (m : Memory) (i : Nat) (b : Byte) : storeWindow m i 1 (b.zeroExtend 64) = m.write i b := by
  have hlow : (b.zeroExtend 64 : Word).extractLsb' 0 8 = b := BitVec.eq_of_toNat_eq (by simpa using b.isLt)
  rw [storeWindow, leBytes, List.range_one, List.map_singleton, Nat.mul_zero, hlow, Memory.writeBytes, Memory.writeBytes]

/-- The host stores one byte (R204, R234). -/
theorem advances_winByte (s : State) (i : Nat) (b : Byte) (rest : List HostAction)
    (h : IdleWith (.bus (winwr 1 i (b.zeroExtend 64)) :: rest) s) (hi : i < s.windowBytes) (hmax : s.windowBytes ≤ 16777215) :
    ∃ t, Advances s rest s.hash t ∧ t.window = s.window.write i b := by
  have hwrite := busOp_winWrite (takeAction s rest) 1 i (b.zeroExtend 64) h.pending (.inl rfl) (Nat.mod_one i)
    (by rw [takeAction_windowBytes]; omega) (by omega)
  rw [storeWindow_byte] at hwrite
  exact ⟨_, ⟨h.runs_bus hwrite, ⟨h.pending, rfl⟩, rfl, rfl, rfl⟩, rfl⟩

/-- HOST_WRITE_CHUNK stores its bytes in their order (R234). -/
theorem advances_winBytes (s : State) (i : Nat) (bs : List Byte) (rest : List HostAction)
    (h : IdleWith (winBytes i bs ++ rest) s) (hi : i + bs.length ≤ s.windowBytes) (hmax : s.windowBytes ≤ 16777215) :
    ∃ t, Advances s rest s.hash t ∧ t.window = s.window.writeBytes i bs := by
  induction bs generalizing s i with
  | nil => exact ⟨s, h.advances, rfl⟩
  | cons b bs ih =>
    rw [List.length_cons] at hi
    obtain ⟨u, hsu, hbyte⟩ := advances_winByte s i b _ h (by omega) hmax
    have hparam := hsu.windowBytes
    obtain ⟨t, hut, hbytes⟩ := ih u (i + 1) hsu.idle (by omega) (by omega)
    rw [hsu.hash] at hut
    exact ⟨t, hsu.trans hut, by rw [hbytes, hbyte, Memory.writeBytes]⟩

/-- HOST_RESET (R233). -/
theorem advances_reset (s : State) (rest : List HostAction) (h : IdleWith (hostReset ++ rest) s) :
    ∃ t, Advances s rest (hashInit s.hash.seed) t := by
  obtain ⟨u, v, t, hsu, hexec, -, hadv⟩ := advances_sync s .reset rest h rfl (by decide)
  rw [exec_reset] at hexec
  injection hexec with hv
  have hhash : v.hash = hashInit s.hash.seed := by rw [← hv, ← hsu.hash]
  exact ⟨t, hhash ▸ hadv⟩

/-- One chunk of HOST_UPDATE absorbs its bytes (R235). -/
theorem advances_chunk (s : State) (chunk : List Byte) (rest : List HostAction) (h : IdleWith (hostChunk chunk ++ rest) s)
    (hlen : chunk.length ≤ s.windowBytes) (hmax : s.windowBytes ≤ 16777215) :
    ∃ t, Advances s rest (absorbBytes s.hash chunk) t := by
  rw [hostChunk, ← encode_consume_ofNat _ (hlen.trans hmax), List.append_assoc] at h
  obtain ⟨w, hsw, hwindow⟩ := advances_winBytes s 0 chunk _ h (by rwa [Nat.zero_add]) hmax
  have hcount : chunk.length = (BitVec.ofNat 24 chunk.length).toNat := by
    rw [BitVec.toNat_ofNat, Nat.mod_eq_of_lt (by omega)]
  obtain ⟨u, v, t, hwu, hexec, -, hadv⟩ := advances_sync w _ rest hsw.idle
    (decide_eq_true (by rwa [← hcount, hsw.windowBytes])) (by simp)
  have hread : ∀ j, j < chunk.length → u.window.read j = chunk[j]? := by
    intro j hj
    rw [hwu.window, hwindow, read_writeBytes, if_pos (by omega), Nat.sub_zero]
  rw [exec_consume, execConsume_written _ u chunk hcount hread] at hexec
  injection hexec with hv
  have hhash : v.hash = absorbBytes s.hash chunk := by rw [← hv, ← hsw.hash, ← hwu.hash]
  exact ⟨t, hsw.trans (hhash ▸ hadv)⟩

/-- HOST_UPDATE's chunks are absorbed one after the other (R235). -/
theorem advances_chunks (s : State) (cs : List (List Byte)) (rest : List HostAction)
    (h : IdleWith (cs.flatMap hostChunk ++ rest) s) (hcs : ∀ c ∈ cs, c.length ≤ s.windowBytes)
    (hmax : s.windowBytes ≤ 16777215) : ∃ t, Advances s rest (absorbBytes s.hash cs.flatten) t := by
  induction cs generalizing s with
  | nil => exact ⟨s, h.advances⟩
  | cons c cs ih =>
    rw [List.flatMap_cons, List.append_assoc] at h
    obtain ⟨u, hsu⟩ := advances_chunk s c _ h (hcs c List.mem_cons_self) hmax
    obtain ⟨t, hut⟩ := ih u hsu.idle (fun d hd => by rw [hsu.windowBytes]; exact hcs d (List.mem_cons_of_mem c hd))
      (by rwa [hsu.windowBytes])
    rw [hsu.hash, ← absorbBytes_append, ← List.flatten_cons] at hut
    exact ⟨t, hsu.trans hut⟩

/-- The chunks are no longer than the window (R235). -/
theorem length_le_of_mem_chunksOf (windowBytes fuel : Nat) (data c : List Byte) (hc : c ∈ chunksOf windowBytes fuel data) :
    c.length ≤ windowBytes := by
  induction fuel generalizing data with
  | zero => cases hc
  | succ fuel ih =>
    cases data with
    | nil => cases hc
    | cons b bs =>
      rcases List.mem_cons.1 hc with rfl | htail
      · exact List.length_take_le _ _
      · exact ih _ htail

/-- The chunks in their order are the input (R235). -/
theorem flatten_chunksOf (windowBytes fuel : Nat) (data : List Byte) (hw : 0 < windowBytes) (hfuel : data.length ≤ fuel) :
    (chunksOf windowBytes fuel data).flatten = data := by
  induction fuel generalizing data with
  | zero => rw [List.length_eq_zero_iff.1 (Nat.le_zero.1 hfuel), chunksOf, List.flatten_nil]
  | succ fuel ih =>
    cases data with
    | nil => rfl
    | cons b bs =>
      rw [List.length_cons] at hfuel
      have hrest : ((b :: bs).drop windowBytes).length ≤ fuel := by
        rw [List.length_drop, List.length_cons]
        omega
      rw [chunksOf, List.flatten_cons, ih _ hrest, List.take_append_drop]
      exact List.cons_ne_nil b bs

/-- HOST_UPDATE absorbs its data (R235). -/
theorem advances_update (s : State) (data : List Byte) (rest : List HostAction)
    (h : IdleWith (hostUpdate s.windowBytes data ++ rest) s) (hmin : 0 < s.windowBytes) (hmax : s.windowBytes ≤ 16777215) :
    ∃ t, Advances s rest (absorbBytes s.hash data) t := by
  have hadv := advances_chunks s _ rest h (length_le_of_mem_chunksOf _ _ _) hmax
  rwa [flatten_chunksOf _ _ data hmin (le_refl _)] at hadv

/-- The host's read of WINDOW[0..7] after FINALIZE (R67, R237). -/
theorem busOp_readDigest (s : State) (m : Memory) (d : Word) (hp : s.pending = none) (hroom : 8 ≤ s.windowBytes)
    (hwindow : s.window = storeDigest m d) : busOp (winrd 8 0) s = s.respond (bswap64 d) := by
  rw [← ofNat_leNat_beBytes64]
  refine busOp_winRead_written s 0 (beBytes64 d) 0#64 hp (by simp) (by simp) (by simpa using hroom) (by decide) fun j hj => ?_
  rw [hwindow, Nat.zero_add, read_storeDigest, if_pos (by simpa using hj)]

/-- HOST_DIGEST: DIGEST is the digest of the hash state it finds, and the last response its swapped value (R237). -/
theorem advances_digest (s : State) (rest : List HostAction) (h : IdleWith (hostDigest ++ rest) s) (hroom : 8 ≤ s.windowBytes) :
    ∃ t, Advances s rest s.hash t ∧ t.digest = finalizeFn s.hash ∧ t.dvalid = true ∧
      t.rsp = some ⟨bswap64 t.digest, false⟩ := by
  rw [hostDigest, List.append_assoc] at h
  obtain ⟨u, v, w, hsu, hexec, hvw, hsw⟩ := advances_sync s .finalize _ h rfl (by decide)
  rw [exec_finalize, hsu.hash] at hexec
  injection hexec with hv
  have hhash : w.hash = s.hash := by rw [hsw.hash, ← hv]
  have hdigest : w.digest = finalizeFn s.hash := by rw [hvw.digest, ← hv]
  have hdvalid : w.dvalid = true := by rw [hvw.dvalid, ← hv]
  have hwindow : w.window = storeDigest u.window (finalizeFn s.hash) := by rw [hvw.window, ← hv]
  have hread := busOp_readDigest (takeAction w rest) u.window (finalizeFn s.hash) hsw.idle.pending
    (by rwa [takeAction_windowBytes, hsw.windowBytes]) hwindow
  have hrun := hsw.run.trans (hsw.idle.runs_bus hread)
  refine ⟨_, ⟨hrun, ⟨hsw.idle.pending, rfl⟩, hhash, hsw.err, hsw.windowBytes⟩, hdigest, hdvalid, ?_⟩
  rw [respond_rsp, respond_digest, takeAction_digest, hdigest]

/-- Settles O60: HOST_RESET, HOST_UPDATE and HOST_DIGEST one after the other, each `sync` in them ended after finitely many polls. -/
theorem hostHashComputesXxh64 : Obligations.HostHashComputesXxh64 := by
  intro s data rest hinv hp hhost
  obtain ⟨hmin, hmax⟩ := hinv.paramRange
  rw [Config.windowMin] at hmin
  rw [hostHash, List.append_assoc, List.append_assoc] at hhost
  obtain ⟨u, hsu⟩ := advances_reset s _ ⟨hp, hhost⟩
  have hparam := hsu.windowBytes
  obtain ⟨v, huv⟩ := advances_update u data _ (hparam ▸ hsu.idle) (by omega) (hparam ▸ hmax)
  obtain ⟨t, hvt, hdigest, hdvalid, hrsp⟩ := advances_digest v rest huv.idle (by rw [huv.windowBytes]; omega)
  obtain ⟨⟨k, hk⟩, hidle, hhash, herr, -⟩ := (hsu.trans huv).trans hvt
  rw [huv.hash, hsu.hash] at hhash hdigest
  exact ⟨k, t, hk, hidle.host, hidle.pending, by rw [hhash, absorbBytes_seed, hashInit_seed], herr, hdigest, hdvalid, hrsp⟩

end Sys2Proof.Machine
end

section
/-! PROOFS. The statements of 60_exceptions.md: what a refused bus operation leaves, and who sets and clears ERR. -/

namespace Sys2Proof.Machine

/-! ## Refused bus operations -/

/-- A bus operation answered with `rsp_err = 1` raised an error, and did nothing else (R262, R263). -/
theorem busOp_refused (r : BusReq) (s : State) (data : Word) (h : (busOp r s).rsp = some ⟨data, true⟩) :
    ∃ c, c ≠ .noError ∧ busOp r s = s.raise c := by
  rcases busOp_cases r s with hraise | ⟨v, d, e⟩ | ⟨-, -, i, -, e⟩ | ⟨-, -, -, -, -, e⟩
  · exact hraise
  · simp [e] at h
  · simp [e] at h
  · simp [e] at h

/-- Settles O53: of what a bus operation can do, only `raise` answers with `rsp_err = 1`. -/
theorem refusedOperationsChangeOnlyErr : Obligations.RefusedOperationsChangeOnlyErr := by
  intro r s data h
  obtain ⟨c, hc, hraise⟩ := busOp_refused r s data h
  have hdata : data = 0#64 := by
    rw [hraise, raise_rsp] at h
    cases h
    rfl
  exact ⟨hdata, c, hc, by rw [hraise, State.raise, stickyErr]⟩

/-! ## Who sets and clears ERR -/

/-- The first error wins: raising one changes ERR only from 0 (R262). -/
theorem stickyErr_changed (old c : ErrCode) (h : stickyErr old c ≠ old) : old = .noError :=
  not_imp_comm.1 (fun hset => if_neg hset) h

/-- A bus operation changes ERR only from 0 (R262). -/
theorem busOp_err_changed_from (r : BusReq) (s : State) (h : (busOp r s).err ≠ s.err) : s.err = .noError := by
  obtain ⟨c, -, hraise⟩ := busOp_refused r s _ (busOp_err_changed r s h)
  rw [hraise, raise_err] at h
  exact stickyErr_changed s.err c h

/-- A step that changes ERR completes a CLRERR, is a hardware reset, or is a refused bus operation with ERR = 0 before it (R262, R266). -/
theorem step_err_changed (s t : State) (h : step s = .next t) (hne : t.err ≠ s.err) :
    (s.pending = some .clrerr ∧ exec .clrerr s = .next t) ∨
    (∃ rest, s.host = .hwReset :: rest ∧ t = (takeAction s rest).hwReset) ∨
    (s.err = .noError ∧ t.rsp = some ⟨0#64, true⟩) := by
  rcases step_cases s t h with ⟨i, hp, -, hexec⟩ | ⟨-, rfl⟩
  · obtain rfl : i = .clrerr := not_imp_comm.1 (fun hi => exec_err i s t hi hexec) hne
    exact .inl ⟨hp, hexec⟩
  · rcases hostStep_cases s with ⟨-, hs⟩ | ⟨r, rest, -, hs⟩ | ⟨rest, -, hs⟩ | ⟨rest, hhost, hs⟩ <;> rw [hs] at hne ⊢
    · exact absurd rfl hne
    · exact .inr (.inr ⟨busOp_err_changed_from r (takeAction s rest) hne, busOp_err_changed r (takeAction s rest) hne⟩)
    · exact absurd (pollStatus_frame (takeAction s rest)).1.err hne
    · exact .inr (.inl ⟨rest, hhost, rfl⟩)

/-- A write to STATUS leaves ERR (R266). -/
theorem busOp_statusWrite_err (s : State) (v : Word) : (busOp ⟨0x00000008#32, true, 4#4, v⟩ s).err = s.err := by
  obtain ⟨-, hignored⟩ := reservedAndReadOnlyOffsetsAreHarmless s v 0x008 (by decide) (by decide)
  rw [hignored (by decide)]

/-- Settles O41: of the steps that change ERR, CLRERR and hardware reset leave 0, and a refused bus operation found 0. -/
theorem errClearsOnlyByClrerrOrReset : Obligations.ErrClearsOnlyByClrerrOrReset := by
  refine ⟨fun s t h hne => ?changed, fun s => ⟨⟨_, exec_clrerr s, rfl⟩, hwReset_err s⟩, fun s t i => exec_err i s t,
    busOp_statusWrite_err⟩
  case changed =>
    rcases step_err_changed s t h hne with ⟨hp, hexec⟩ | ⟨rest, hhost, rfl⟩ | hrefused
    · have hclear : t.err = .noError := by
        rw [exec_clrerr] at hexec
        cases hexec
        rfl
      exact .inl ⟨hclear, .inl ⟨hp, hexec⟩⟩
    · exact .inl ⟨hwReset_err _, .inr ⟨rest, hhost⟩⟩
    · exact .inr hrefused

end Sys2Proof.Machine
end

section
/-! PROOFS. The statement of 70_reset_and_hazards.md on back-to-back commands: the seed an INIT takes from what FINALIZE stored. -/

namespace Sys2Proof.Machine

/-- After FINALIZE, WINDOW[0..7] holds DIGEST's bytes, the most significant first (R67, R166). -/
theorem exec_finalize_window (s t : State) (h : exec .finalize s = .next t) (j : Nat) (hj : j < 8) :
    t.window.read j = some (t.digest.extractLsb' (56 - 8 * j) 8) := by
  obtain ⟨t', ht', hdigest, hstored, -⟩ := finalizeWritesTheDigest s
  obtain rfl : t = t' := Host.Outcome.next.inj (h.symm.trans ht')
  rw [hstored j hj, hdigest]

/-- An INIT right after a FINALIZE starts from LANE_INIT of `bswap64(DIGEST)` (R297). -/
theorem exec_init_after_finalize (s t : State) (h : exec .finalize s = .next t) :
    ∃ u, exec .init t = .next u ∧ u.hash = hashInit (bswap64 t.digest) :=
  exec_init_written t (bswap64 t.digest) fun j hj => by rw [exec_finalize_window s t h j hj, bswap64_byte _ j hj]

/-- Settles O32: FINALIZE stores DIGEST big-endian, INIT reads its seed little-endian, so byte 7-j becomes byte j. -/
theorem initAfterFinalizeTakesTheSwappedDigest : Obligations.InitAfterFinalizeTakesTheSwappedDigest := by
  intro s t h
  obtain ⟨u, hu, hhash⟩ := exec_init_after_finalize s t h
  exact ⟨u, hu, fun j hj => by rw [hhash, hashInit_seed, bswap64_byte _ j hj]⟩

end Sys2Proof.Machine
end
